-- ==== Sys2Proof/Word.lean ====
section
/-! DEFINITION. The words of the command port and of the response port, and the byte of a table image. -/

namespace Sys2Proof

/-- One command word, and the data word of a response: 32 bits (R70, R72, R73). -/
abbrev Word := BitVec 32

/-- One byte of a table image (R53), and one WaveTable or EnvelopeTable entry (R6). -/
abbrev Byte := BitVec 8

end Sys2Proof
end

