-- ==== Sys2Proof/Syntax.lean ====
section
/-! DEFINITION. The six commands of the block: one constructor for each row of spec/opcode_table.json (R71, R75). -/

namespace Sys2Proof

/-- A command with its operand fields as R74 assembles them. -/
inductive Instr where
  /-- NOTE_ON note8, vel7 (R141). `note8` is one bit wider than a MIDI note, so that OutOfRangeNote can arise (R74). -/
  | noteOn (note8 : BitVec 8) (vel7 : BitVec 7)
  /-- NOTE_OFF (R146). -/
  | noteOff
  /-- RENDER (R151). -/
  | render
  /-- ISFREE (R160). -/
  | isFree
  /-- LOOKUP note8 (R91). -/
  | lookup (note8 : BitVec 8)
  /-- RDREG reg8 (R165). -/
  | rdreg (reg8 : BitVec 8)
deriving DecidableEq, Repr

end Sys2Proof
end

