-- ==== Sys2Proof/WellFormed.lean ====
section
/-! DEFINITION. Which instructions some command word encodes. -/

namespace Sys2Proof

/-- An instruction that R77 lets some word encode: RDREG names one of the six registers (R74, R77 (c)).
A note number above 127 is no encoding fault (R79), so NOTE_ON and LOOKUP have no check. -/
def Instr.wf : Instr → Bool
  | .noteOn _ _ => true
  | .noteOff => true
  | .render => true
  | .isFree => true
  | .lookup _ => true
  | .rdreg reg8 => decide (reg8.toNat ≤ 5)

end Sys2Proof
end

