-- ==== Sys2Proof/Decode.lean ====
section
/-! DEFINITION. Decoding a command word (R73 to R79), total on all words and rejecting by name; then the encoder,
written from the same formats. -/

namespace Sys2Proof

/-- Why a word is illegal: the three cases of R77. -/
inductive IllegalReason where
  /-- R77 (a): the opcode byte is 0x00 or 0x07 to 0xFF. -/
  | opcode
  /-- R77 (b): a must-be-zero bit of the opcode's format is 1. -/
  | mustBeZero
  /-- R77 (c): RDREG of a register number above 5. -/
  | register
deriving DecidableEq, Repr

/-- What a word decodes to: one instruction, or illegal with the reason (R78). -/
inductive Decoded where
  | instr (i : Instr)
  | illegal (why : IllegalReason)
deriving DecidableEq, Repr

/-- `op`, bits 31:24 (R73). -/
def opField (w : Word) : BitVec 8 := w.extractLsb' 24 8

/-- `note8`, bits 23:16 (R74). -/
def noteField (w : Word) : BitVec 8 := w.extractLsb' 16 8

/-- `vel7`, bits 14:8 (R74). -/
def velField (w : Word) : BitVec 7 := w.extractLsb' 8 7

/-- `reg8`, bits 23:16 (R74). -/
def regField (w : Word) : BitVec 8 := w.extractLsb' 16 8

/-- The checks after the opcode has chosen the format: the must-be-zero bits first (R76), then R77 (c). -/
def checkFormat (w zeros : Word) (i : Instr) : Decoded :=
  if w &&& zeros = 0#32 then
    if i.wf then .instr i else .illegal .register
  else .illegal .mustBeZero

/-- Decoding is by the opcode byte alone, then the must-be-zero bits of its format are checked (R76). -/
def decode (w : Word) : Decoded :=
  match (opField w).toNat with
  | 1 => checkFormat w 0x000080FF#32 (.noteOn (noteField w) (velField w))
  | 2 => checkFormat w 0x00FFFFFF#32 .noteOff
  | 3 => checkFormat w 0x00FFFFFF#32 .render
  | 4 => checkFormat w 0x00FFFFFF#32 .isFree
  | 5 => checkFormat w 0x0000FFFF#32 (.lookup (noteField w))
  | 6 => checkFormat w 0x0000FFFF#32 (.rdreg (regField w))
  | _ => .illegal .opcode

/-- The command word of an instruction, field by field from the high bits down (R73: formats N, K, KV and R). -/
def encode : Instr → Word
  | .noteOn note8 vel7 => 0x01#8 ++ note8 ++ 0#1 ++ vel7 ++ 0#8
  | .noteOff => 0x02#8 ++ 0#24
  | .render => 0x03#8 ++ 0#24
  | .isFree => 0x04#8 ++ 0#24
  | .lookup note8 => 0x05#8 ++ note8 ++ 0#16
  | .rdreg reg8 => 0x06#8 ++ reg8 ++ 0#16

/-- The command word whose low `nbits` bits are `w`, every bit above them 0 (R73: one 32-bit word a command). -/
def tableWord (nbits w : Nat) : Word := BitVec.ofNat 32 (w % 2 ^ nbits)

/-- The instruction decoded from a row's bits as spec/opcode_table.json numbers them, if the word is legal. -/
def decodeTableWord (nbits w : Nat) : Option Instr :=
  match decode (tableWord nbits w) with
  | .instr i => some i
  | .illegal _ => none

end Sys2Proof
end

