-- ==== Sys2Proof/Config.lean ====
section
/-! DEFINITION. The configuration of one instance of the block: the eight static parameters (R8, R9) and the contents
of the three read-only tables (R6, R7). Both are fixed before the block leaves reset and nothing changes them
(R23, R191, R199). -/

namespace Sys2Proof

/-- The eight static parameters of R8. -/
structure Params where
  /-- `FRAC_BITS`, written `F`: fractional bits of phase and increment. -/
  fracBits : Nat
  /-- `CYC_BASE`: first WaveTable index of the cycle. -/
  cycBase : Nat
  /-- `CYC_LEN`, written `L`: number of WaveTable entries in the cycle. -/
  cycLen : Nat
  /-- `ENV_ATT_START`, written `A0`: first index of the attack segment. -/
  attStart : Nat
  /-- `ENV_DEC_START`, written `D0`: one past the last attack index; first decay index. -/
  decStart : Nat
  /-- `ENV_SUS_INDEX`, written `S`: one past the last decay index; the sustain index. -/
  susIndex : Nat
  /-- `ENV_REL_START`, written `R0`: first index of the release segment. -/
  relStart : Nat
  /-- `ENV_REL_END`, written `R1`: one past the last index of the release segment. -/
  relEnd : Nat
deriving DecidableEq, Repr, Inhabited

/-- The constraints of R8 and R9. Parameters that break one are not an instance of the block. -/
abbrev Params.Legal (p : Params) : Prop :=
  p.fracBits ≤ 16 ∧
  p.cycBase ≤ 1151 ∧
  (1 ≤ p.cycLen ∧ p.cycLen ≤ 1152 ∧ p.cycBase + p.cycLen ≤ 1152) ∧
  (p.attStart < p.decStart ∧ p.decStart < p.susIndex ∧ p.susIndex ≤ 1023) ∧
  (p.relStart < p.relEnd ∧ p.relEnd ≤ 1024)

/-- The reference configuration `REF` of R8, the parameters of the spec's test vectors. -/
def Params.ref : Params where
  fracBits := 8
  cycBase := 0
  cycLen := 1152
  attStart := 0
  decStart := 256
  susIndex := 512
  relStart := 768
  relEnd := 1024

/-- The three read-only tables, of exactly the sizes and element widths of R6 ("a binary contract"). -/
structure Tables where
  /-- WaveTable `W`: signed 8-bit samples in two's complement (R20). -/
  wave : Vector (BitVec 8) 1152
  /-- EnvelopeTable `E`: unsigned 8-bit amplitudes (R21). -/
  env : Vector (BitVec 8) 1024
  /-- PitchTable `P`: unsigned 16-bit phase increments (R22). -/
  pitch : Vector (BitVec 16) 128
deriving DecidableEq, Repr, Inhabited

/-- One instance's configuration. It carries the proof that its parameters are legal, so an instance that R9 refuses
cannot be written down, and every index the block forms from it is in range by construction (R57, R173). -/
structure Config extends Params, Tables where
  legal : toParams.Legal
deriving DecidableEq, Repr

theorem Config.fracBits_le (c : Config) : c.fracBits ≤ 16 := c.legal.1
theorem Config.cycLen_pos (c : Config) : 0 < c.cycLen := c.legal.2.2.1.1
theorem Config.cycLen_le (c : Config) : c.cycLen ≤ 1152 := c.legal.2.2.1.2.1
theorem Config.cycle_le (c : Config) : c.cycBase + c.cycLen ≤ 1152 := c.legal.2.2.1.2.2
theorem Config.attStart_lt (c : Config) : c.attStart < c.decStart := c.legal.2.2.2.1.1
theorem Config.decStart_lt (c : Config) : c.decStart < c.susIndex := c.legal.2.2.2.1.2.1
theorem Config.susIndex_le (c : Config) : c.susIndex ≤ 1023 := c.legal.2.2.2.1.2.2
theorem Config.relStart_lt (c : Config) : c.relStart < c.relEnd := c.legal.2.2.2.2.1
theorem Config.relEnd_le (c : Config) : c.relEnd ≤ 1024 := c.legal.2.2.2.2.2

/-- FREE VALUE (log 2). The parameters of the instance at hand: OPEN in the spec (D7, D8, D12), so nothing is known of
them. -/
opaque Config.freeParams : Params

/-- FREE VALUE (log 2). The table contents of the instance at hand: no source gives an entry (R7, D34). -/
opaque Config.freeTables : Tables

/-- The configuration the block was built with: any legal one (log 2). Legal parameters are taken as they are;
`Params.ref` stands only where the free parameters are no instance of the block (R9). -/
def Config.installed : Config where
  toParams := if Config.freeParams.Legal then Config.freeParams else Params.ref
  toTables := Config.freeTables
  legal := by
    split
    · assumption
    · decide

end Sys2Proof
end

