-- ==== Sys2Proof/Machine/State.lean ====
section
/-! DEFINITION. The state of the block and of its ports, and the state right after reset. -/

namespace Sys2Proof.Machine

/-- The five envelope states, held in `seg` (R26, R124): a tagged variant, so the codes 5, 6 and 7, which the register
never holds, have no representation (U12, log 7). `segCode` gives the register's three bits. -/
inductive Segment where
  | idle
  | attack
  | decay
  | sustain
  | release
deriving DecidableEq, Repr

/-- The six voice registers of an instance with `F` fractional bits: all the writable state of the block (R34). -/
structure Voice (F : Nat) where
  /-- Position in the cycle, unsigned fixed point: `PHASE_W = F + 11` bits, the low `F` the fractional part (R24, R10). -/
  phase : BitVec (F + 11)
  /-- Phase increment, in the unit of `phase` (R25). -/
  inc : BitVec 16
  /-- Envelope segment (R26). -/
  seg : Segment
  /-- Progress index into the EnvelopeTable (R27). -/
  prog : BitVec 10
  /-- The note that activated the voice (R28). -/
  note : BitVec 7
  /-- The velocity (R29). -/
  vel : BitVec 7
deriving DecidableEq, Repr

/-- The reset values of the six registers (R190), which are also the Free state (R33, I4). -/
def Voice.reset {F : Nat} : Voice F where
  phase := 0
  inc := 0
  seg := .idle
  prog := 0
  note := 0
  vel := 0

/-- The status codes of R170; the codes 5 to 15 are never returned (U12). `tableIndexOverflow` is assigned so that the
source's list is complete, and no step responds it (R173, log 9). -/
inductive Status where
  | ok
  | outOfRangeNote
  | invalidState
  | tableIndexOverflow
  | illegalCommand
deriving DecidableEq, Repr

/-- What a transaction returns (R72). -/
structure Response where
  status : Status
  data : Word
deriving DecidableEq, Repr

/-- What the host can do to the block (R199): present one command word, or assert and release reset (log 4). -/
inductive Input where
  | command (word : Word)
  | reset
deriving DecidableEq, Repr

/-- The block, its configuration and its two ports. -/
structure State where
  /-- The configuration (R16), which no step writes (log 1). -/
  cfg : Config
  /-- The voice registers (R34), of the widths this configuration gives them. -/
  voice : Voice cfg.fracBits
  /-- The model's own: what the host has yet to present, the next first (R16, R70, log 4). The block has no queue (R32). -/
  inputs : List Input
  /-- The model's own: the responses returned so far, the oldest first (R17, R70, log 4). -/
  responses : List Response
deriving DecidableEq, Repr

/-- Why the machine stops. Nothing in the spec makes the block stop, hang or wait, and a table read never faults
(R17, R56, R178): there is no fault to name, and no step raises one (log 9). -/
inductive Fault
deriving DecidableEq, Repr

/-- Why an instruction has no meaning in the model. -/
inductive Refusal where
  /-- Raised by an arm of `exec` whose instruction is not modelled; no arm raises it. Safe: the run stops. -/
  | notModelled (mnemonic : String)
deriving DecidableEq, Repr

/-- The machine right after reset (R190): every voice register 0, the tables and parameters as they were built
(R191, log 2), nothing presented and nothing returned (log 4). -/
def State.reset : State where
  cfg := Config.installed
  voice := Voice.reset
  inputs := []
  responses := []

end Sys2Proof.Machine
end

