-- ==== Sys2Proof/Machine/Ops.lean ====
section
/-! DEFINITION. The named operations: the two ports, the shared ending of every command (a response), the error
response that stands in place of an exception, the table reads, reset, and the loading of table images. -/

namespace Sys2Proof.Machine

/-- `floor(a / b)` for `b > 0` (R11): the greatest integer not above the quotient. -/
def floorDiv (a : Int) (b : Nat) : Int := a / (b : Int)

/-! ## Ports -/

/-- Take the next input the host presents, if any: one at a time, in the order presented (R58, R70). -/
def takeInput (s : State) : Option (Input × State) :=
  match s.inputs with
  | [] => none
  | i :: rest => some (i, { s with inputs := rest })

/-- Put a command word where the next step takes its input from. -/
def presentCommand (s : State) (w : Word) : State := { s with inputs := .command w :: s.inputs }

/-- `respond(status, data)` of R14: end the command and hand the host its one response (R70, R72). -/
def respond (s : State) (status : Status) (data : Word) : State :=
  { s with responses := s.responses ++ [{ status := status, data := data }] }

/-- The block's error mechanism, in place of taking an exception (R175, R178): a status other than OK, data 0 (R72), no
register changed and nothing recorded. -/
def fail (s : State) (status : Status) : State := respond s status 0#32

/-- Replace the voice registers. -/
def withVoice (s : State) (v : Voice s.cfg.fracBits) : State := { s with voice := v }

/-- The reset input asserted and released (R190): the registers take their reset values; tables and parameters are not
touched (R191); no command is taken and no response given (log 4). -/
def applyReset (s : State) : State := withVoice s Voice.reset

/-! ## Table reads (R13, R55): total, without side effects (R56) -/

/-- `W[i]`, sign-extended (R55). -/
def waveEntry (c : Config) (i : Fin 1152) : Int := (c.wave[i.val]).toInt

/-- `E[j]`, zero-extended (R55). -/
def envEntry (c : Config) (j : Fin 1024) : Nat := (c.env[j.val]).toNat

/-- `P[n]`, the phase increment itself (R90). -/
def pitchEntry (c : Config) (n : Fin 128) : BitVec 16 := c.pitch[n.val]

/-! ## Table images (R53) -/

/-- A configuration from parameters and the byte images of the three tables: `W` and `E` one byte an entry, `P`
little-endian (R53). Refused where the parameters break R8 or R9, or an image has not exactly the size of its table
(R6, R194). -/
def configOfImages (p : Params) (w e pt : List Byte) : Option Config :=
  if h : p.Legal ∧ w.length = 1152 ∧ e.length = 1024 ∧ pt.length = 256 then
    some
      { toParams := p
        wave := Vector.ofFn fun i => w[i.val]'(by omega)
        env := Vector.ofFn fun j => e[j.val]'(by omega)
        pitch := Vector.ofFn fun n => pt[2 * n.val + 1]'(by omega) ++ pt[2 * n.val]'(by omega)
        legal := h.1 }
  else none

end Sys2Proof.Machine
end

