-- ==== Sys2Proof/Machine/Operands.lean ====
section
/-! DEFINITION. Operand forms: the note number and its range check, the registers RDREG names, the codes of `seg` and of
the status, and the response as one word. -/

namespace Sys2Proof.Machine

/-- The PitchTable index of a `note8` operand, where it is 0 to 127 (R91, R141). -/
def noteIndex (note8 : BitVec 8) : Option (Fin 128) :=
  if h : note8.toNat < 128 then some ⟨note8.toNat, h⟩ else none

/-- `seg`'s register code (R26). -/
def segCode : Segment → BitVec 3
  | .idle => 0
  | .attack => 1
  | .decay => 2
  | .sustain => 3
  | .release => 4

/-- The code of a status (R170). -/
def statusCode : Status → BitVec 4
  | .ok => 0
  | .outOfRangeNote => 1
  | .invalidState => 2
  | .tableIndexOverflow => 3
  | .illegalCommand => 4

/-- The response as the single 36-bit value `status ++ data` (R72). -/
def responseWord (r : Response) : BitVec 36 := statusCode r.status ++ r.data

/-- `zext_32(REG[reg8])` for `reg8` 0 to 5; no register has another number (R165). -/
def readRegister {F : Nat} (v : Voice F) (reg8 : BitVec 8) : Option Word :=
  match reg8.toNat with
  | 0 => some (v.phase.setWidth 32)
  | 1 => some (v.inc.setWidth 32)
  | 2 => some ((segCode v.seg).setWidth 32)
  | 3 => some (v.prog.setWidth 32)
  | 4 => some (v.note.setWidth 32)
  | 5 => some (v.vel.setWidth 32)
  | _ => none

/-- The EnvelopeTable index held in `prog`: ten bits, so below 1024 (R27, R33 I5). -/
def progIndex {F : Nat} (v : Voice F) : Fin 1024 := ⟨v.prog.toNat, v.prog.isLt⟩

/-- `sext_32` of the output sample (R151, R152). -/
def sampleData (out : Int) : Word := BitVec.ofInt 32 out

end Sys2Proof.Machine
end

