-- ==== Sys2Proof/Machine/Pitch.lean ====
section
/-! DEFINITION. The PitchTable family: LOOKUP (spec/40_pitch_lookup.md). -/

namespace Sys2Proof.Machine

/-- LOOKUP (R91): `P[note8]` zero-extended, or OutOfRangeNote and no clamp (R92). Pure (R93). -/
def execLookup (note8 : BitVec 8) (s : State) : Host.Outcome State Fault Refusal :=
  match noteIndex note8 with
  | none => .next (fail s .outOfRangeNote)
  | some n => .next (respond s .ok ((pitchEntry s.cfg n).setWidth 32))

end Sys2Proof.Machine
end

