-- ==== Sys2Proof/Machine/RegisterRead.lean ====
section
/-! DEFINITION. The register-read family: RDREG (spec/44_register_read.md). -/

namespace Sys2Proof.Machine

/-- RDREG (R165): the register zero-extended, or IllegalCommand where no register has the number. The decoder refuses
such a word first, with the same response (R77 (c)). Pure (R166). -/
def execRdreg (reg8 : BitVec 8) (s : State) : Host.Outcome State Fault Refusal :=
  match readRegister s.voice reg8 with
  | none => .next (fail s .illegalCommand)
  | some w => .next (respond s .ok w)

end Sys2Proof.Machine
end

