-- ==== Sys2Proof/Machine/Envelope.lean ====
section
/-! DEFINITION. The EnvelopeGenerator: micro-operation ENV_TICK, performed only as part of RENDER
(spec/42_envelope.md). -/

namespace Sys2Proof.Machine

/-- The voice in segment `seg` at EnvelopeTable index `j`. -/
def enterSegment {F : Nat} (v : Voice F) (seg : Segment) (j : Nat) : Voice F := { v with seg := seg, prog := BitVec.ofNat 10 j }

/-- The sustain index `S` as an EnvelopeTable index (R9: `S <= 1023`). -/
def sustainIndex (c : Config) : Fin 1024 := ⟨c.susIndex, by have := c.susIndex_le; omega⟩

/-- ENV_TICK (R123): the amplitude at the index on entry, and the registers with the envelope advanced by one step
(R117: read, then advance). At most one transition a tick. In Idle it returns 0 and reads nothing (R122). -/
def envTick (c : Config) (v : Voice c.fracBits) : Nat × Voice c.fracBits :=
  let here := envEntry c (progIndex v)
  let next := v.prog.toNat + 1
  match v.seg with
  | .idle => (0, v)
  | .attack => (here, if next ≥ c.decStart then enterSegment v .decay c.decStart else enterSegment v .attack next)
  | .decay => (here, if next ≥ c.susIndex then enterSegment v .sustain c.susIndex else enterSegment v .decay next)
  | .sustain => (envEntry c (sustainIndex c), v)
  | .release =>
    (here, if here = 0 ∨ next ≥ c.relEnd then { v with seg := .idle } else enterSegment v .release next)

end Sys2Proof.Machine
end

