-- ==== Sys2Proof/Machine/Flags.lean ====
section
/-! DEFINITION. The block has no flags and no condition codes (R32). The one condition its commands test is the
voice's lifecycle, which is a function of `seg` and not a register (R30). -/

namespace Sys2Proof.Machine

/-- Free: `seg` is Idle (R30). -/
def isFreeSeg : Segment → Bool
  | .idle => true
  | .attack => false
  | .decay => false
  | .sustain => false
  | .release => false

/-- Releasing: `seg` is Release (R30). -/
def isReleasingSeg : Segment → Bool
  | .idle => false
  | .attack => false
  | .decay => false
  | .sustain => false
  | .release => true

/-- Active: `seg` is Attack, Decay or Sustain (R30). -/
def isActiveSeg : Segment → Bool
  | .idle => false
  | .attack => true
  | .decay => true
  | .sustain => true
  | .release => false

end Sys2Proof.Machine
end

