-- ==== Sys2Proof/Machine/Oscillator.lean ====
section
/-! DEFINITION. The Oscillator: micro-operation OSC_RENDER, performed only as part of RENDER
(spec/41_oscillator.md). -/

namespace Sys2Proof.Machine

/-- `PHASE_MOD = L * 2^F` (R10). -/
def phaseMod (c : Config) : Nat := c.cycLen * 2 ^ c.fracBits

/-- The WaveTable index of cycle position `k`, wrapped modulo the cycle length (R101): inside
`[CYC_BASE, CYC_BASE + CYC_LEN)`, so in range whatever `k` is (R57). -/
def cycleIndex (c : Config) (k : Nat) : Fin 1152 :=
  ⟨c.cycBase + k % c.cycLen, by
    have h := Nat.mod_lt k c.cycLen_pos
    have := c.cycle_le
    omega⟩

/-- `idx = (phase >> F) mod L` (R101). -/
def oscIdx (c : Config) (phase : BitVec (c.fracBits + 11)) : Nat := phase.toNat / 2 ^ c.fracBits % c.cycLen

/-- `frac = phase[F-1:0]`, 0 when `F = 0` (R101). -/
def oscFrac (c : Config) (phase : BitVec (c.fracBits + 11)) : Nat := phase.toNat % 2 ^ c.fracBits

/-- `s0 + floor((s1 - s0) * frac / 2^F)` (R103). -/
def interpolate (c : Config) (s0 s1 : Int) (frac : Nat) : Int :=
  s0 + floorDiv ((s1 - s0) * (frac : Int)) (2 ^ c.fracBits)

/-- `(phase + inc) mod (L * 2^F)`, the sum exact and the modulo true (R104). -/
def advancePhase (c : Config) (phase : BitVec (c.fracBits + 11)) (inc : BitVec 16) : BitVec (c.fracBits + 11) :=
  BitVec.ofNat (c.fracBits + 11) ((phase.toNat + inc.toNat) % phaseMod c)

/-- OSC_RENDER (R106): the sample at the phase on entry, and the registers with the phase advanced. -/
def oscRender (c : Config) (v : Voice c.fracBits) : Int × Voice c.fracBits :=
  let idx := oscIdx c v.phase
  let s0 := waveEntry c (cycleIndex c idx)
  let s1 := waveEntry c (cycleIndex c (idx + 1))
  (interpolate c s0 s1 (oscFrac c v.phase), { v with phase := advancePhase c v.phase v.inc })

end Sys2Proof.Machine
end

