-- ==== Sys2Proof/Machine/Voice.lean ====
section
/-! DEFINITION. The Voice family: NOTE_ON, NOTE_OFF, RENDER, ISFREE (spec/43_voice.md). -/

namespace Sys2Proof.Machine

/-- NOTE_ON (R141): OutOfRangeNote above 127 (R142); else the same in every state, a retrigger where the voice is not
Free (R143). `phase` is not written. -/
def execNoteOn (note8 : BitVec 8) (vel7 : BitVec 7) (s : State) : Host.Outcome State Fault Refusal :=
  match noteIndex note8 with
  | none => .next (fail s .outOfRangeNote)
  | some n =>
    let v := { enterSegment s.voice .attack s.cfg.attStart with
      inc := pitchEntry s.cfg n, note := note8.setWidth 7, vel := vel7 }
    .next (respond (withVoice s v) .ok 0#32)

/-- NOTE_OFF (R146): to the start of the release segment; InvalidState and no change in Idle and in Release (R147). -/
def execNoteOff (s : State) : Host.Outcome State Fault Refusal :=
  if isFreeSeg s.voice.seg || isReleasingSeg s.voice.seg then .next (fail s .invalidState)
  else .next (respond (withVoice s (enterSegment s.voice .release s.cfg.relStart)) .ok 0#32)

/-- `out = floor(y * a * vel / 128)` (R152). -/
def outputSample (y : Int) (a : Nat) (vel : BitVec 7) : Int := floorDiv (y * (a : Int) * (vel.toNat : Int)) 128

/-- Release-complete (R153): where the tick has reached Idle, the other five registers take their reset values. -/
def clearIfIdle {F : Nat} (v : Voice F) : Voice F :=
  if isFreeSeg v.seg then { v with phase := 0, inc := 0, prog := 0, note := 0, vel := 0 } else v

/-- RENDER (R151): silence in Idle (R154); else one OSC_RENDER, one ENV_TICK, the output with the velocity on entry,
then release-complete. Never an error (R176). -/
def execRender (s : State) : Host.Outcome State Fault Refusal :=
  if isFreeSeg s.voice.seg then .next (respond s .ok 0#32)
  else
    let osc := oscRender s.cfg s.voice
    let tick := envTick s.cfg osc.2
    let out := outputSample osc.1 tick.1 tick.2.vel
    .next (respond (withVoice s (clearIfIdle tick.2)) .ok (sampleData out))

/-- ISFREE (R160): 1 exactly in Idle. -/
def execIsFree (s : State) : Host.Outcome State Fault Refusal :=
  .next (respond s .ok (if isFreeSeg s.voice.seg then 1#32 else 0#32))

end Sys2Proof.Machine
end

