-- ==== Sys2Proof/Machine/Dispatch.lean ====
section
/-! DEFINITION. One arm per instruction: each calls its meaning. -/

namespace Sys2Proof.Machine

/-- Perform one command (R16, R78), on a state whose input list it has been taken from. -/
def exec (i : Instr) (s : State) : Host.Outcome State Fault Refusal :=
  match i with
  | .noteOn note8 vel7 => Sys2Proof.Machine.execNoteOn note8 vel7 s
  | .noteOff => Sys2Proof.Machine.execNoteOff s
  | .render => Sys2Proof.Machine.execRender s
  | .isFree => Sys2Proof.Machine.execIsFree s
  | .lookup note8 => Sys2Proof.Machine.execLookup note8 s
  | .rdreg reg8 => Sys2Proof.Machine.execRdreg reg8 s

end Sys2Proof.Machine
end

