-- ==== Sys2Proof/Machine/Step.lean ====
section
/-! DEFINITION. One step of the block: one input of the host (R58, R70). -/

namespace Sys2Proof.Machine

/-- Take the next input. A reset input resets (R190); a command word is decoded and performed (R16, R78), an illegal one
answers IllegalCommand and changes no state (R77); with nothing presented nothing happens (R179, log 5). -/
def step (s : State) : Host.Outcome State Fault Refusal :=
  match takeInput s with
  | none => .next s
  | some (.reset, s') => .next (applyReset s')
  | some (.command w, s') =>
    match decode w with
    | .instr i => exec i s'
    | .illegal _ => .next (fail s' .illegalCommand)

/-- The command word of a row of spec/opcode_table.json, presented so that the very next step performs it (log 4). -/
def State.withFetchWord (s : State) (nbits w : Nat) : State := presentCommand s (tableWord nbits w)

end Sys2Proof.Machine
end

