-- ==== Sys2Proof/Safety.lean ====
section
/-! DEFINITION. What claims about the block are stated in: the invariants of R33, the fields of a word and R77's
illegal words in plain arithmetic, what a command leaves beside the registers, and runs over a sequence of inputs. -/

namespace Sys2Proof.Machine

/-- I1, I3 and I4 of R33 (I2 holds by the type of `seg`, I5 by the type of every table index): the registers of a
state the block can reach. -/
abbrev Voice.Inv (c : Config) (v : Voice c.fracBits) : Prop :=
  v.phase.toNat < c.cycLen * 2 ^ c.fracBits ∧
  (v.seg = .attack → c.attStart ≤ v.prog.toNat ∧ v.prog.toNat < c.decStart) ∧
  (v.seg = .decay → c.decStart ≤ v.prog.toNat ∧ v.prog.toNat < c.susIndex) ∧
  (v.seg = .sustain → v.prog.toNat = c.susIndex) ∧
  (v.seg = .release → c.relStart ≤ v.prog.toNat ∧ v.prog.toNat < c.relEnd) ∧
  (v.seg = .idle → v = Voice.reset)

/-- The invariant of a whole state. -/
abbrev State.Inv (s : State) : Prop := s.voice.Inv s.cfg

/-- Bits 31:24 of a command word (R73). -/
abbrev opOf (w : Word) : Nat := w.toNat / 2 ^ 24

/-- Bits 23:16 of a command word, `note8` or `reg8` (R74). -/
abbrev operandOf (w : Word) : Nat := w.toNat / 2 ^ 16 % 2 ^ 8

/-- Bits 14:8 of a command word, `vel7` (R74). -/
abbrev velOf (w : Word) : Nat := w.toNat / 2 ^ 8 % 2 ^ 7

/-- A must-be-zero bit of the format of opcode 0x01 to 0x06 is 1 (R73). -/
abbrev ZeroBitSet (w : Word) : Prop :=
  (opOf w = 1 ∧ (w.toNat % 2 ^ 8 ≠ 0 ∨ w.toNat / 2 ^ 15 % 2 ≠ 0)) ∨
  ((opOf w = 2 ∨ opOf w = 3 ∨ opOf w = 4) ∧ w.toNat % 2 ^ 24 ≠ 0) ∨
  ((opOf w = 5 ∨ opOf w = 6) ∧ w.toNat % 2 ^ 16 ≠ 0)

/-- The illegal words of R77, cases (a), (b) and (c). -/
abbrev IllegalWord (w : Word) : Prop :=
  (opOf w = 0 ∨ 7 ≤ opOf w) ∨ ZeroBitSet w ∨ (opOf w = 6 ∧ 5 < operandOf w)

/-- What every command does beside the registers: configuration and inputs as before, one response appended
(R63, R70). -/
abbrev Responds (s t : State) (status : Status) (data : Word) : Prop :=
  t.cfg = s.cfg ∧ t.inputs = s.inputs ∧ t.responses = s.responses ++ [{ status := status, data := data }]

/-- The state `s` with the registers `v` after a command that answers `(status, data)`. -/
abbrev State.answer (s : State) (v : Voice s.cfg.fracBits) (status : Status) (data : Word) : State :=
  { s with voice := v, responses := s.responses ++ [{ status := status, data := data }] }

/-- The state `s` with the registers `v` after a run over all its inputs that returns the responses `rs`. -/
abbrev State.done (s : State) (v : Voice s.cfg.fracBits) (rs : List Response) : State :=
  { s with inputs := [], voice := v, responses := s.responses ++ rs }

/-- The same registers and ports beside other tables. -/
abbrev State.withTables (s : State) (tables : Tables) : State :=
  { s with cfg := { s.cfg with toTables := tables } }

/-- The same registers and ports in an instance with other tables and other parameters; `F` alone is kept, which is the
width of `phase` (R10). -/
abbrev State.withConfig (s : State) (p : Params) (tables : Tables)
    (h : Params.Legal { p with fracBits := s.cfg.fracBits }) : State :=
  { s with cfg := { toParams := { p with fracBits := s.cfg.fracBits }, toTables := tables, legal := h } }

/-- The pseudo-command `RENDER xN` (R81): the word 0x03000000, `n` times. -/
def renders (n : Nat) : List Input := List.replicate n (.command 0x03000000#32)

/-- The state with the host about to present exactly `ins`. -/
def State.feed (s : State) (ins : List Input) : State := { s with inputs := ins }

/-- The state after the block has taken every one of the inputs `ins`, one step each, if no step stops. -/
def State.after (s : State) (ins : List Input) : Host.Outcome State Fault Refusal :=
  Host.Core.run core ins.length (s.feed ins)

/-- How many of the inputs are commands. -/
def commandCount : List Input → Nat
  | [] => 0
  | .command _ :: ins => commandCount ins + 1
  | .reset :: ins => commandCount ins

/-- `n` performances of OSC_RENDER, nothing else (R108). -/
def oscTimes (c : Config) : Nat → Voice c.fracBits → Voice c.fracBits
  | 0, v => v
  | n + 1, v => oscTimes c n (oscRender c v).2

end Sys2Proof.Machine
end

