-- ==== Sys2Proof/Certificates/Slice0/Obligations.lean ====
section
/-! DEFINITION. The statements for the provers. Every one is for every configuration the spec calls an instance (R8,
R9) and every content of the tables (R7), because a state carries its configuration (log 1). -/

open Sys2Proof Sys2Proof.Machine

/-! ## Encoding (30_encoding.md) -/

/-- The worked encodings of section 5 (the spec's own derived rule R82): legal words and illegal ones. -/
def Obligations.WorkedEncodingsDecode : Prop :=
  decode 0x013C6400#32 = .instr (.noteOn 60 100) ∧
  decode 0x01457F00#32 = .instr (.noteOn 69 127) ∧
  decode 0x01C80100#32 = .instr (.noteOn 200 1) ∧
  decode 0x02000000#32 = .instr .noteOff ∧
  decode 0x03000000#32 = .instr .render ∧
  decode 0x04000000#32 = .instr .isFree ∧
  decode 0x05450000#32 = .instr (.lookup 69) ∧
  decode 0x06000000#32 = .instr (.rdreg 0) ∧
  decode 0x06050000#32 = .instr (.rdreg 5) ∧
  decode 0x00000000#32 = .illegal .opcode ∧
  decode 0x013C6401#32 = .illegal .mustBeZero ∧
  decode 0x013CE400#32 = .illegal .mustBeZero ∧
  decode 0x02000001#32 = .illegal .mustBeZero ∧
  decode 0x06060000#32 = .illegal .register ∧
  decode 0x07000000#32 = .illegal .opcode

/-- R75's match and mask for each row, with R73's and R74's fields; for RDREG also R77 (c). -/
def Obligations.DecodeSelectsTheRowOfTheOpcodeMap : Prop :=
  ∀ w : Word,
    (∀ n v, decode w = .instr (.noteOn n v) ↔
      w &&& 0xFF0080FF#32 = 0x01000000#32 ∧ n.toNat = operandOf w ∧ v.toNat = velOf w) ∧
    (decode w = .instr .noteOff ↔ w &&& 0xFFFFFFFF#32 = 0x02000000#32) ∧
    (decode w = .instr .render ↔ w &&& 0xFFFFFFFF#32 = 0x03000000#32) ∧
    (decode w = .instr .isFree ↔ w &&& 0xFFFFFFFF#32 = 0x04000000#32) ∧
    (∀ n, decode w = .instr (.lookup n) ↔
      w &&& 0xFF00FFFF#32 = 0x05000000#32 ∧ n.toNat = operandOf w) ∧
    (∀ r, decode w = .instr (.rdreg r) ↔
      w &&& 0xFF00FFFF#32 = 0x06000000#32 ∧ r.toNat = operandOf w ∧ operandOf w ≤ 5)

/-- R77: a word is illegal exactly by (a), (b) or (c), and then the response is (IllegalCommand, 0) and no state
changes; R174: every other word selects a command. -/
def Obligations.IllegalWordAnswersIllegalCommand : Prop :=
  ∀ (s : State) (w : Word) (rest : List Input), s.inputs = .command w :: rest →
    (IllegalWord w →
      (∃ why, decode w = .illegal why) ∧
      step s = .next { s with inputs := rest, responses := s.responses ++ [⟨.illegalCommand, 0⟩] }) ∧
    (¬ IllegalWord w → ∃ i, decode w = .instr i)

/-- Decoding is total and single-valued (the spec's derived rule R78): a legal word is the encoding of exactly one
well-formed instruction, the one it decodes to; an illegal word is the encoding of none. -/
def Obligations.EveryWordHasOneMeaningOrIsIllegal : Prop :=
  ∀ w : Word,
    (¬ IllegalWord w → ∃ i, (i.wf = true ∧ encode i = w ∧ decode w = .instr i) ∧
      ∀ j, j.wf = true → encode j = w → j = i) ∧
    (IllegalWord w → ∀ i, i.wf = true → encode i ≠ w)

/-- Decode and encode agree on every well-formed instruction, whatever its operands. -/
def Obligations.DecodeOfEncodeIsTheInstruction : Prop :=
  ∀ i : Instr, i.wf = true → decode (encode i) = .instr i

/-- The decoder answers only well-formed instructions, and no bit of the word is dropped. -/
def Obligations.EncodeOfDecodeIsTheWord : Prop :=
  ∀ (w : Word) (i : Instr), decode w = .instr i → i.wf = true ∧ encode i = w

/-! ## The step and its ports (20_memory.md, 30_encoding.md, 70_reset_and_hazards.md) -/

/-- A command word that decodes is performed: the input is taken from the list and the instruction's meaning runs. -/
def Obligations.StepPerformsTheDecodedCommand : Prop :=
  ∀ (s : State) (w : Word) (rest : List Input) (i : Instr),
    s.inputs = .command w :: rest → decode w = .instr i → step s = exec i { s with inputs := rest }

/-- R70: each step takes one input, in order, and a command returns exactly one response. No input makes the block
stop. -/
def Obligations.EachInputIsTakenAndEachCommandAnsweredOnce : Prop :=
  ∀ (s : State) (x : Input) (rest : List Input), s.inputs = x :: rest →
    ∃ t, step s = .next t ∧ t.inputs = rest ∧ t.cfg = s.cfg ∧
      (∀ w, x = .command w → ∃ r, t.responses = s.responses ++ [r])

/-- The model's choices at its ports: with nothing presented a step changes nothing (log 5, its reading of "Nothing
happens in the block between commands", 60_exceptions.md section 3), and the reset input has no response (log 4). -/
def Obligations.NothingPresentedAndResetAnswerNothing : Prop :=
  ∀ s : State,
    (s.inputs = [] → step s = .next s) ∧
    (∀ rest, s.inputs = .reset :: rest → ∃ t, step s = .next t ∧ t.responses = s.responses)

/-- R58: the state after command `k` is the step function applied to the state after command `k - 1`. -/
def Obligations.CommandsTakeEffectInTheOrderPresented : Prop :=
  ∀ (s t u : State) (x : Input) (xs ys : List Input),
    (step (s.feed [x]) = .next t → s.after (x :: xs) = t.after xs) ∧
    (s.after xs = .next u → s.after (xs ++ ys) = u.after ys)

/-- R190 and R191: the reset input gives every voice register its reset value, whatever the state; the tables and the
parameters stay. No command is taken. The registers are those of the state right after reset. -/
def Obligations.ResetInputGivesTheResetState : Prop :=
  ∀ (s : State) (rest : List Input), s.inputs = .reset :: rest →
    ∃ t, step s = .next t ∧
      t.voice.phase.toNat = 0 ∧ t.voice.inc.toNat = 0 ∧ t.voice.seg = .idle ∧ segCode t.voice.seg = 0 ∧
      t.voice.prog.toNat = 0 ∧ t.voice.note.toNat = 0 ∧ t.voice.vel.toNat = 0 ∧
      t.cfg = s.cfg ∧ t.inputs = rest ∧ t.voice = Voice.reset ∧ State.reset.voice = Voice.reset

/-- The reset values of the table of registers (10_state.md, section 5), in the state right after reset. -/
def Obligations.ResetStateRegistersAreZero : Prop :=
  State.reset.voice.phase.toNat = 0 ∧ State.reset.voice.inc.toNat = 0 ∧ segCode State.reset.voice.seg = 0 ∧
  State.reset.voice.prog.toNat = 0 ∧ State.reset.voice.note.toNat = 0 ∧ State.reset.voice.vel.toNat = 0

/-- From 70_reset_and_hazards.md, section 2: after reset RENDER returns 0 and ISFREE returns 1 until the first
successful NOTE_ON, whatever other commands come between. -/
def Obligations.SilentAfterResetUntilNoteOn : Prop :=
  ∀ (s : State) (i : Instr), s.voice = Voice.reset → (∀ n v, i = .noteOn n v → 127 < n.toNat) →
    ∃ t, exec i s = .next t ∧ t.voice = Voice.reset ∧
      (i = .render → Responds s t .ok 0) ∧ (i = .isFree → Responds s t .ok 1)

/-- R23: the contents of the tables never change while the block runs; nor do the parameters. -/
def Obligations.ConfigurationNeverChanges : Prop :=
  ∀ (ins : List Input) (s t : State), s.after ins = .next t → t.cfg = s.cfg

/-- From 70_reset_and_hazards.md, section 4 (R201): given the configuration, the start state and the inputs, the
responses and the registers are unique; they do not depend on what was returned before. One response for each command
and none for a reset among the inputs, with the responses kept over it: that much is the model's choice (log 4). -/
def Obligations.ResponseSequenceIsUnique : Prop :=
  ∀ (s : State) (ins waiting : List Input) (old : List Response),
    ∃ (v : Voice s.cfg.fracBits) (rs : List Response),
      s.after ins = .next (s.done v rs) ∧
      State.after { s with inputs := waiting, responses := old } ins = .next { s with
        inputs := []
        voice := v
        responses := old ++ rs } ∧
      rs.length = commandCount ins

/-! ## Errors (60_exceptions.md) -/

/-- R175: a command whose status is not OK changes no register, its data is 0 and the error is nowhere else; and it
reads no table, so under any other tables (and any other parameters, `F` alone kept) it does the same. -/
def Obligations.ErrorChangesNothingAndReadsNoTable : Prop :=
  ∀ (s t : State) (w : Word) (rest : List Input) (r : Response),
    s.inputs = .command w :: rest → step s = .next t → t.responses = s.responses ++ [r] → r.status ≠ .ok →
      r.data = 0 ∧ t = { s with inputs := rest, responses := s.responses ++ [r] } ∧
      ∀ (p : Params) (tables : Tables) (h : Params.Legal { p with fracBits := s.cfg.fracBits }),
        step (s.withConfig p tables h) =
          .next { s.withConfig p tables h with inputs := rest, responses := s.responses ++ [r] }

/-- R170, R171, R172: which command raises which status, and when, with the codes; TableIndexOverflow is returned by
nothing. -/
def Obligations.EachStatusHasItsCauseAndNoOther : Prop :=
  (∀ (s t : State) (w : Word) (rest : List Input) (r : Response),
    s.inputs = .command w :: rest → step s = .next t → t.responses = s.responses ++ [r] →
      (r.status = .outOfRangeNote ↔
        ∃ n : BitVec 8, 127 < n.toNat ∧ ((∃ v, decode w = .instr (.noteOn n v)) ∨ decode w = .instr (.lookup n))) ∧
      (r.status = .invalidState ↔
        decode w = .instr .noteOff ∧ (s.voice.seg = .idle ∨ s.voice.seg = .release)) ∧
      r.status ≠ .tableIndexOverflow ∧
      (r.status = .illegalCommand ↔ IllegalWord w) ∧
      (r.status ≠ .ok → r.data = 0 ∧ t = { s with inputs := rest, responses := s.responses ++ [r] })) ∧
  (statusCode .ok).toNat = 0 ∧ (statusCode .outOfRangeNote).toNat = 1 ∧ (statusCode .invalidState).toNat = 2 ∧
  (statusCode .tableIndexOverflow).toNat = 3 ∧ (statusCode .illegalCommand).toNat = 4

/-- R72: the status is one of the five codes, OK is code 0, data is 0 whenever the status is not OK, and the response
as one 36-bit value is `status ++ data`. -/
def Obligations.ResponseIsStatusThenData : Prop :=
  ∀ (s t : State) (w : Word) (rest : List Input),
    s.inputs = .command w :: rest → step s = .next t →
      ∃ r, t.responses = s.responses ++ [r] ∧ (statusCode r.status).toNat ≤ 4 ∧
        ((statusCode r.status).toNat = 0 ↔ r.status = .ok) ∧ ((statusCode r.status).toNat ≠ 0 → r.data = 0) ∧
        (responseWord r).toNat = (statusCode r.status).toNat * 2 ^ 32 + r.data.toNat

/-- R79: a note number of 128 to 255 is no illegal encoding, and the illegal check comes first. -/
def Obligations.IllegalCommandComesBeforeOutOfRangeNote : Prop :=
  ∀ (s : State) (w : Word) (rest : List Input),
    s.inputs = .command w :: rest → (opOf w = 1 ∨ opOf w = 5) → 127 < operandOf w →
      (ZeroBitSet w →
        step s = .next { s with inputs := rest, responses := s.responses ++ [⟨.illegalCommand, 0⟩] }) ∧
      (¬ ZeroBitSet w →
        (∃ i, decode w = .instr i) ∧
        step s = .next { s with inputs := rest, responses := s.responses ++ [⟨.outOfRangeNote, 0⟩] })

/-- The spec's derived rule R176: the words of RENDER and ISFREE are answered with OK in every state. -/
def Obligations.RenderAndIsFreeNeverFail : Prop :=
  ∀ (s : State) (w : Word) (rest : List Input),
    s.inputs = .command w :: rest → (w = 0x03000000#32 ∨ w = 0x04000000#32) →
      ∃ t d, step s = .next t ∧ t.responses = s.responses ++ [⟨.ok, d⟩]

/-! ## LOOKUP (40_pitch_lookup.md) -/

/-- R91, with R92's refusal of a note out of range: the entry zero-extended for a note in range; OutOfRangeNote, not a
clamp, above 127. -/
def Obligations.LookupAnswersTheEntryOrOutOfRange : Prop :=
  ∀ (s : State) (n : BitVec 8),
    (∀ h : n.toNat < 128, ∃ d, exec (.lookup n) s = .next (s.answer s.voice .ok d) ∧
      d.toNat = (s.cfg.pitch[n.toNat]).toNat) ∧
    (127 < n.toNat → exec (.lookup n) s = .next (s.answer s.voice .outOfRangeNote 0))

/-- R93: LOOKUP leaves the state unchanged and its response depends on `note8` and `P` alone. -/
def Obligations.LookupIsPure : Prop :=
  ∀ (s s' : State) (n : BitVec 8), s'.cfg.pitch = s.cfg.pitch →
    ∃ r, exec (.lookup n) s = .next { s with responses := s.responses ++ [r] } ∧
      exec (.lookup n) s' = .next { s' with responses := s'.responses ++ [r] }

/-! ## OSC_RENDER (41_oscillator.md) -/

/-- R101: under I1 the first modulo changes nothing; both indices lie in the cycle whatever `phase` holds; the last
entry of the cycle interpolates toward the first. -/
def Obligations.WaveIndicesWrapInsideTheCycle : Prop :=
  ∀ (c : Config) (phase : BitVec (c.fracBits + 11)) (k : Nat),
    (phase.toNat < c.cycLen * 2 ^ c.fracBits → oscIdx c phase = phase.toNat / 2 ^ c.fracBits) ∧
    oscIdx c phase < c.cycLen ∧
    oscFrac c phase = phase.toNat % 2 ^ c.fracBits ∧
    (c.fracBits = 0 → oscFrac c phase = 0) ∧
    (cycleIndex c (oscIdx c phase)).val = c.cycBase + oscIdx c phase ∧
    (oscIdx c phase + 1 < c.cycLen → (cycleIndex c (oscIdx c phase + 1)).val = c.cycBase + oscIdx c phase + 1) ∧
    (oscIdx c phase + 1 = c.cycLen → (cycleIndex c (oscIdx c phase + 1)).val = c.cycBase) ∧
    (c.cycBase ≤ (cycleIndex c k).val ∧ (cycleIndex c k).val < c.cycBase + c.cycLen ∧ (cycleIndex c k).val < 1152) ∧
    (c.cycLen = 1 → (cycleIndex c k).val = c.cycBase)

/-- R103: the interpolation rounds toward minus infinity and stays between its two entries, in 8 bits signed. -/
def Obligations.InterpolationFloorsBetweenItsEntries : Prop :=
  ∀ (c : Config) (s0 s1 : Int) (frac : Nat),
    -128 ≤ s0 → s0 ≤ 127 → -128 ≤ s1 → s1 ≤ 127 → frac < 2 ^ c.fracBits →
      (interpolate c s0 s1 frac - s0) * 2 ^ c.fracBits ≤ (s1 - s0) * (frac : Int) ∧
      (s1 - s0) * (frac : Int) < (interpolate c s0 s1 frac - s0 + 1) * 2 ^ c.fracBits ∧
      (s0 ≤ s1 → s0 ≤ interpolate c s0 s1 frac ∧ interpolate c s0 s1 frac ≤ s1) ∧
      (s0 < s1 → interpolate c s0 s1 frac < s1) ∧
      (s1 < s0 → s1 ≤ interpolate c s0 s1 frac ∧ interpolate c s0 s1 frac ≤ s0) ∧
      (frac = 0 → interpolate c s0 s1 frac = s0) ∧
      -128 ≤ interpolate c s0 s1 frac ∧ interpolate c s0 s1 frac ≤ 127

/-- R104, R105, R106: OSC_RENDER returns the sample at the phase on entry, a signed 8-bit value, and writes `phase`
only, by a true modulo. -/
def Obligations.OscRenderReturnsTheSampleAndAdvancesThePhase : Prop :=
  ∀ (c : Config) (v : Voice c.fracBits),
    ∃ (h0 : c.cycBase + v.phase.toNat / 2 ^ c.fracBits % c.cycLen < 1152)
      (h1 : c.cycBase + (v.phase.toNat / 2 ^ c.fracBits % c.cycLen + 1) % c.cycLen < 1152) (s0 s1 : Int),
      s0 = (c.wave[c.cycBase + v.phase.toNat / 2 ^ c.fracBits % c.cycLen]).toInt ∧
      s1 = (c.wave[c.cycBase + (v.phase.toNat / 2 ^ c.fracBits % c.cycLen + 1) % c.cycLen]).toInt ∧
      (oscRender c v).1 =
        s0 + Int.fdiv ((s1 - s0) * ((v.phase.toNat % 2 ^ c.fracBits : Nat) : Int)) (2 ^ c.fracBits) ∧
      -128 ≤ (oscRender c v).1 ∧ (oscRender c v).1 ≤ 127 ∧
      (oscRender c v).2.phase.toNat = (v.phase.toNat + v.inc.toNat) % (c.cycLen * 2 ^ c.fracBits) ∧
      (oscRender c v).2 = { v with phase := (oscRender c v).2.phase }

/-- The spec's derived rule R107: with increment 0 the phase is frozen and the sample repeats. -/
def Obligations.ZeroIncrementFreezesThePhase : Prop :=
  ∀ (c : Config) (v : Voice c.fracBits) (n : Nat), v.phase.toNat < c.cycLen * 2 ^ c.fracBits → v.inc = 0 →
    oscTimes c n v = v ∧ (oscRender c (oscTimes c n v)).1 = (oscRender c v).1

/-- The spec's derived rule R108, the phase law, exact. -/
def Obligations.PhaseLawIsExact : Prop :=
  ∀ (c : Config) (v : Voice c.fracBits) (n : Nat), v.phase.toNat < c.cycLen * 2 ^ c.fracBits →
    (oscTimes c n v).phase.toNat = (v.phase.toNat + n * v.inc.toNat) % (c.cycLen * 2 ^ c.fracBits) ∧
    oscTimes c n v = { v with phase := (oscTimes c n v).phase }

/-- The spec's derived rule R109: the exact period of the phase, and with it of the samples. -/
def Obligations.PhaseHasTheExactPeriod : Prop :=
  ∀ (c : Config) (v : Voice c.fracBits) (n : Nat), v.phase.toNat < c.cycLen * 2 ^ c.fracBits → 0 < v.inc.toNat →
    (oscTimes c n v = v ↔
      c.cycLen * 2 ^ c.fracBits / Nat.gcd v.inc.toNat (c.cycLen * 2 ^ c.fracBits) ∣ n) ∧
    (oscRender c (oscTimes c
      (n + c.cycLen * 2 ^ c.fracBits / Nat.gcd v.inc.toNat (c.cycLen * 2 ^ c.fracBits)) v)).1 =
      (oscRender c (oscTimes c n v)).1

/-! ## ENV_TICK and the segments (42_envelope.md) -/

/-- R122 and R123: ENV_TICK in each of the five states; it writes `seg` and `prog` only, and the amplitude is 0 to
255. -/
def Obligations.EnvTickInEachState : Prop :=
  ∀ (c : Config) (v : Voice c.fracBits),
    (envTick c v).1 ≤ 255 ∧
    (envTick c v).2 = { v with seg := (envTick c v).2.seg, prog := (envTick c v).2.prog } ∧
    (v.seg = .idle → envTick c v = (0, v)) ∧
    (v.seg = .attack → (envTick c v).1 = (c.env[v.prog.toNat]'v.prog.isLt).toNat ∧
      (c.decStart ≤ v.prog.toNat + 1 →
        (envTick c v).2.seg = .decay ∧ (envTick c v).2.prog.toNat = c.decStart) ∧
      (v.prog.toNat + 1 < c.decStart →
        (envTick c v).2.seg = .attack ∧ (envTick c v).2.prog.toNat = v.prog.toNat + 1)) ∧
    (v.seg = .decay → (envTick c v).1 = (c.env[v.prog.toNat]'v.prog.isLt).toNat ∧
      (c.susIndex ≤ v.prog.toNat + 1 →
        (envTick c v).2.seg = .sustain ∧ (envTick c v).2.prog.toNat = c.susIndex) ∧
      (v.prog.toNat + 1 < c.susIndex →
        (envTick c v).2.seg = .decay ∧ (envTick c v).2.prog.toNat = v.prog.toNat + 1)) ∧
    (v.seg = .sustain → (∃ h : c.susIndex < 1024, (envTick c v).1 = (c.env[c.susIndex]).toNat) ∧
      (envTick c v).2 = v) ∧
    (v.seg = .release → (envTick c v).1 = (c.env[v.prog.toNat]'v.prog.isLt).toNat ∧
      ((c.env[v.prog.toNat]'v.prog.isLt).toNat = 0 ∨ c.relEnd ≤ v.prog.toNat + 1 →
        (envTick c v).2.seg = .idle ∧ (envTick c v).2.prog = v.prog) ∧
      ((c.env[v.prog.toNat]'v.prog.isLt).toNat ≠ 0 ∧ v.prog.toNat + 1 < c.relEnd →
        (envTick c v).2.seg = .release ∧ (envTick c v).2.prog.toNat = v.prog.toNat + 1))

/-- R125: the complete transition table, row by row, and no other transition; an illegal command changes nothing. -/
def Obligations.SegmentsChangeOnlyByTheTransitionTable : Prop :=
  (∀ (s t : State) (w : Word) (rest : List Input), s.inputs = .command w :: rest → IllegalWord w → step s = .next t →
    t.voice.seg = s.voice.seg ∧ t.voice.prog = s.voice.prog) ∧
  (∀ (s t : State) (i : Instr), s.Inv → exec i s = .next t →
    (∀ n v, i = .noteOn n v → n.toNat < 128 → t.voice.seg = .attack ∧ t.voice.prog.toNat = s.cfg.attStart) ∧
    (∀ n v, i = .noteOn n v → 127 < n.toNat → t.voice.seg = s.voice.seg ∧ t.voice.prog = s.voice.prog) ∧
    (i = .render → s.voice.seg = .attack → s.cfg.decStart ≤ s.voice.prog.toNat + 1 →
      t.voice.seg = .decay ∧ t.voice.prog.toNat = s.cfg.decStart) ∧
    (i = .render → s.voice.seg = .attack → s.voice.prog.toNat + 1 < s.cfg.decStart →
      t.voice.seg = .attack ∧ t.voice.prog.toNat = s.voice.prog.toNat + 1) ∧
    (i = .render → s.voice.seg = .decay → s.cfg.susIndex ≤ s.voice.prog.toNat + 1 →
      t.voice.seg = .sustain ∧ t.voice.prog.toNat = s.cfg.susIndex) ∧
    (i = .render → s.voice.seg = .decay → s.voice.prog.toNat + 1 < s.cfg.susIndex →
      t.voice.seg = .decay ∧ t.voice.prog.toNat = s.voice.prog.toNat + 1) ∧
    (i = .render → s.voice.seg = .sustain → t.voice.seg = .sustain ∧ t.voice.prog.toNat = s.cfg.susIndex) ∧
    (i = .render → s.voice.seg = .release →
      (s.cfg.env[s.voice.prog.toNat]'s.voice.prog.isLt = 0 ∨ s.cfg.relEnd ≤ s.voice.prog.toNat + 1) →
      t.voice.seg = .idle ∧ t.voice.prog.toNat = 0) ∧
    (i = .render → s.voice.seg = .release →
      (s.cfg.env[s.voice.prog.toNat]'s.voice.prog.isLt ≠ 0 ∧ s.voice.prog.toNat + 1 < s.cfg.relEnd) →
      t.voice.seg = .release ∧ t.voice.prog.toNat = s.voice.prog.toNat + 1) ∧
    (i = .render → s.voice.seg = .idle → t.voice.seg = .idle ∧ t.voice.prog.toNat = 0) ∧
    (i = .noteOff → s.voice.seg = .attack ∨ s.voice.seg = .decay ∨ s.voice.seg = .sustain →
      t.voice.seg = .release ∧ t.voice.prog.toNat = s.cfg.relStart) ∧
    (i = .noteOff → s.voice.seg = .release ∨ s.voice.seg = .idle →
      t.voice.seg = s.voice.seg ∧ t.voice.prog = s.voice.prog) ∧
    (t.voice.seg ≠ s.voice.seg ∨ t.voice.prog ≠ s.voice.prog →
      (∃ n v, i = .noteOn n v ∧ n.toNat < 128) ∨ i = .noteOff ∨ i = .render))

/-- R117: the tick reads at the index on entry, then advances, once for each rendered sample; the first RENDER after a
NOTE_ON uses `E[A0]`, and the first RENDER after a NOTE_OFF uses `E[R0]`. -/
def Obligations.FirstRenderReadsTheStartOfTheSegment : Prop :=
  (∀ (c : Config) (v : Voice c.fracBits), v.seg = .attack ∨ v.seg = .decay ∨ v.seg = .release →
    (envTick c v).1 = (c.env[v.prog.toNat]'v.prog.isLt).toNat) ∧
  (∀ s : State, s.voice.seg ≠ .idle → ∃ v d, exec .render s = .next (s.answer v .ok d) ∧
    v.seg = (envTick s.cfg s.voice).2.seg ∧ (v.seg ≠ .idle → v.prog = (envTick s.cfg s.voice).2.prog)) ∧
  ∀ (s : State) (n : BitVec 8) (v : BitVec 7),
    (n.toNat < 128 → ∃ (h : s.cfg.attStart < 1024) (t : State) (d : Word),
      s.after [.command (encode (.noteOn n v)), .command 0x03000000#32] = .next t ∧
      t.responses = s.responses ++ [⟨.ok, 0⟩, ⟨.ok, d⟩] ∧
      d.toInt = Int.fdiv ((oscRender s.cfg s.voice).1 * ((s.cfg.env[s.cfg.attStart]).toNat : Int) * (v.toNat : Int))
        128) ∧
    (s.voice.seg = .attack ∨ s.voice.seg = .decay ∨ s.voice.seg = .sustain →
      ∃ (h : s.cfg.relStart < 1024) (t : State) (d : Word),
      s.after [.command 0x02000000#32, .command 0x03000000#32] = .next t ∧
      t.responses = s.responses ++ [⟨.ok, 0⟩, ⟨.ok, d⟩] ∧
      d.toInt = Int.fdiv ((oscRender s.cfg s.voice).1 * ((s.cfg.env[s.cfg.relStart]).toNat : Int) *
        (s.voice.vel.toNat : Int)) 128)

/-- From 42_envelope.md, section 2 (R120), with the phase law of 41_oscillator.md (R108, the spec's own derivation from
R104): Sustain holds under any number of RENDERs, the amplitude is `E[S]`, and only `phase` moves; only a NOTE_OFF or a
NOTE_ON ends it. -/
def Obligations.SustainHoldsUnderRender : Prop :=
  ∀ (s : State) (n : Nat), s.Inv → s.voice.seg = .sustain →
    (∃ h : s.cfg.susIndex < 1024, (envTick s.cfg s.voice).1 = (s.cfg.env[s.cfg.susIndex]).toNat) ∧
    ∃ t, s.after (renders n) = .next t ∧ t.voice.seg = .sustain ∧ t.voice.prog.toNat = s.cfg.susIndex ∧
      t.voice.phase.toNat = (s.voice.phase.toNat + n * s.voice.inc.toNat) % (s.cfg.cycLen * 2 ^ s.cfg.fracBits) ∧
      t.voice.inc = s.voice.inc ∧ t.voice.note = s.voice.note ∧ t.voice.vel = s.voice.vel ∧
      ∀ (i : Instr) (u : State), exec i t = .next u → u.voice.seg ≠ .sustain →
        (∃ n v, i = .noteOn n v) ∨ i = .noteOff

/-- The first half of the spec's derived rule R128: where the envelope stands `k` RENDERs after a NOTE_ON. -/
def Obligations.AttackAndDecayLastTheirSegments : Prop :=
  ∀ (s : State) (n : BitVec 8) (v : BitVec 7) (k : Nat), n.toNat < 128 →
    ∃ t, s.after (.command (encode (.noteOn n v)) :: renders k) = .next t ∧
      (s.cfg.attStart + k < s.cfg.decStart →
        t.voice.seg = .attack ∧ t.voice.prog.toNat = s.cfg.attStart + k) ∧
      (s.cfg.decStart ≤ s.cfg.attStart + k → s.cfg.attStart + k < s.cfg.susIndex →
        t.voice.seg = .decay ∧ t.voice.prog.toNat = s.cfg.attStart + k) ∧
      (s.cfg.susIndex ≤ s.cfg.attStart + k →
        t.voice.seg = .sustain ∧ t.voice.prog.toNat = s.cfg.susIndex)

/-- The second half of the spec's derived rule R128: after a NOTE_OFF in an active state the release goes on exactly
while no zero has been read and the segment lasts, and then the voice is in the reset state. -/
def Obligations.ReleaseEndsOnZeroOrExhaustion : Prop :=
  ∀ (s : State) (m : Nat), s.voice.seg = .attack ∨ s.voice.seg = .decay ∨ s.voice.seg = .sustain →
    ∃ t, s.after (.command 0x02000000#32 :: renders m) = .next t ∧
      ((s.cfg.relStart + m < s.cfg.relEnd ∧
          ∀ j, j < m → ∀ h : s.cfg.relStart + j < 1024, s.cfg.env[s.cfg.relStart + j] ≠ 0) →
        t.voice.seg = .release ∧ t.voice.prog.toNat = s.cfg.relStart + m ∧
        t.voice.inc = s.voice.inc ∧ t.voice.note = s.voice.note ∧ t.voice.vel = s.voice.vel) ∧
      (¬ (s.cfg.relStart + m < s.cfg.relEnd ∧
          ∀ j, j < m → ∀ h : s.cfg.relStart + j < 1024, s.cfg.env[s.cfg.relStart + j] ≠ 0) →
        t.voice = Voice.reset)

/-! ## The voice commands (43_voice.md) -/

/-- R141 and R142: NOTE_ON in every state. -/
def Obligations.NoteOnStartsTheNoteOrIsOutOfRange : Prop :=
  ∀ (s : State) (n : BitVec 8) (vel : BitVec 7),
    (∀ h : n.toNat < 128, ∃ v, exec (.noteOn n vel) s = .next (s.answer v .ok 0) ∧
      v.inc = s.cfg.pitch[n.toNat] ∧ v.seg = .attack ∧ v.prog.toNat = s.cfg.attStart ∧
      v.note.toNat = n.toNat ∧ v.vel = vel ∧ v.phase = s.voice.phase) ∧
    (127 < n.toNat → exec (.noteOn n vel) s = .next (s.answer s.voice .outOfRangeNote 0))

/-- R143: a retrigger is performed exactly as in Idle: of the old voice only `phase` is kept, and the status is OK; a
note started from Idle starts at phase 0 (in a state with the invariants). -/
def Obligations.RetriggerKeepsOnlyThePhase : Prop :=
  ∀ (s s' : State) (v' : Voice s.cfg.fracBits) (n : BitVec 8) (vel : BitVec 7),
    n.toNat < 128 → v'.phase = s.voice.phase → s' = { s with voice := v' } →
      ∃ v : Voice s.cfg.fracBits,
        exec (.noteOn n vel) s = .next (s.answer v .ok 0) ∧ exec (.noteOn n vel) s' = .next (s.answer v .ok 0) ∧
        v.phase = s.voice.phase ∧ (s.Inv → s.voice.seg = .idle → v.phase.toNat = 0)

/-- R127: a NOTE_ON restarts at Attack from every state; nothing else leaves Release but the tick that ends it. -/
def Obligations.OnlyNoteOnRetriggersARelease : Prop :=
  (∀ (s : State) (n : BitVec 8) (v : BitVec 7), n.toNat < 128 →
    ∃ t, exec (.noteOn n v) s = .next t ∧ t.voice.seg = .attack ∧ t.voice.prog.toNat = s.cfg.attStart) ∧
  (∀ (s t : State) (i : Instr), s.voice.seg = .release → exec i s = .next t → t.voice.seg ≠ .release →
    ((∃ n v, i = .noteOn n v) ∧ t.voice.seg = .attack) ∨ (i = .render ∧ t.voice.seg = .idle))

/-- R144: velocity 0 is a legal NOTE_ON: the voice goes through its envelope as with any velocity `vel`, every sample is
0, and it is no note-off. -/
def Obligations.VelocityZeroSoundsAtZeroLevel : Prop :=
  ∀ (s : State) (n : BitVec 8) (vel : BitVec 7) (k : Nat), n.toNat < 128 →
    ∃ (v : Voice s.cfg.fracBits) (rs : List Response),
      s.after (.command (encode (.noteOn n vel)) :: renders k) = .next (s.done v rs) ∧
      s.after (.command (encode (.noteOn n 0)) :: renders k) =
        .next (s.done { v with vel := 0 } (List.replicate (k + 1) ⟨.ok, 0⟩)) ∧
      v.seg ≠ .idle ∧ v.seg ≠ .release

/-- R146: NOTE_OFF in an active state starts the release and keeps the oscillator, the note and the velocity; in Idle
and in Release it is InvalidState. -/
def Obligations.NoteOffStartsTheRelease : Prop :=
  ∀ s : State,
    (s.voice.seg = .attack ∨ s.voice.seg = .decay ∨ s.voice.seg = .sustain →
      ∃ v, exec .noteOff s = .next (s.answer v .ok 0) ∧
        v.seg = .release ∧ v.prog.toNat = s.cfg.relStart ∧
        v.phase = s.voice.phase ∧ v.inc = s.voice.inc ∧ v.note = s.voice.note ∧ v.vel = s.voice.vel) ∧
    (s.voice.seg = .idle ∨ s.voice.seg = .release →
      exec .noteOff s = .next (s.answer s.voice .invalidState 0))

/-- R147: NOTE_OFF in Idle or Release changes no state, so calling it twice gives the same registers as once, and the
second call answers InvalidState. -/
def Obligations.NoteOffTwiceIsNoteOffOnce : Prop :=
  ∀ s : State, ∃ t r, exec .noteOff s = .next t ∧ t.responses = s.responses ++ [r] ∧
    exec .noteOff t = .next (t.answer t.voice .invalidState 0) ∧
    (s.voice.seg = .idle ∨ s.voice.seg = .release → t = s.answer s.voice .invalidState 0)

/-- R154: RENDER in Idle is silence and changes no register, any number of times. -/
def Obligations.RenderInIdleIsSilence : Prop :=
  ∀ (s : State) (n : Nat), s.voice.seg = .idle →
    exec .render s = .next (s.answer s.voice .ok 0) ∧
    s.after (renders n) = .next (s.done s.voice (List.replicate n ⟨.ok, 0⟩))

/-- R151 and R153: RENDER is silence in Idle; of a sounding voice it multiplies the three factors and floors once, and
leaves either the registers as OSC_RENDER and ENV_TICK leave them, or all reset where the tick ended the release. -/
def Obligations.RenderMultipliesSampleAmplitudeVelocity : Prop :=
  ∀ s : State,
    (s.voice.seg = .idle → exec .render s = .next (s.answer s.voice .ok 0)) ∧
    (s.voice.seg ≠ .idle → ∃ v d, exec .render s = .next (s.answer v .ok d) ∧
      d.toInt =
        Int.fdiv ((oscRender s.cfg s.voice).1 * ((envTick s.cfg s.voice).1 : Int) * (s.voice.vel.toNat : Int)) 128 ∧
      ((envTick s.cfg s.voice).2.seg ≠ .idle →
        v =
          { s.voice with
            phase := (oscRender s.cfg s.voice).2.phase
            seg := (envTick s.cfg s.voice).2.seg
            prog := (envTick s.cfg s.voice).2.prog }) ∧
      ((envTick s.cfg s.voice).2.seg = .idle →
        v.seg = .idle ∧ v.phase.toNat = 0 ∧ v.inc.toNat = 0 ∧ v.prog.toNat = 0 ∧ v.note.toNat = 0 ∧
        v.vel.toNat = 0))

/-- R152: the output value, its range, and its encoding in `data`. -/
def Obligations.OutputIsFlooredInRangeAndSignExtended : Prop :=
  ∀ (y : Int) (a : Nat) (vel : BitVec 7), -128 ≤ y → y ≤ 127 → a ≤ 255 →
    128 * outputSample y a vel ≤ y * (a : Int) * (vel.toNat : Int) ∧
    y * (a : Int) * (vel.toNat : Int) < 128 * (outputSample y a vel + 1) ∧
    -4145280 ≤ y * (a : Int) * (vel.toNat : Int) ∧ y * (a : Int) * (vel.toNat : Int) ≤ 4145280 ∧
    -32385 ≤ outputSample y a vel ∧ outputSample y a vel ≤ 32131 ∧
    (sampleData (outputSample y a vel)).toInt = outputSample y a vel ∧
    ((sampleData (outputSample y a vel)).extractLsb' 0 16).toInt = outputSample y a vel ∧
    sampleData (outputSample y a vel) = ((sampleData (outputSample y a vel)).extractLsb' 0 16).signExtend 32

/-- The extremes of the output (the spec's derived rule R156). -/
def Obligations.OutputExtremes : Prop :=
  outputSample (-128) 255 127 = -32385 ∧ sampleData (-32385) = 0xFFFF817F#32 ∧
  outputSample 127 255 127 = 32131 ∧ sampleData 32131 = 0x00007D83#32 ∧
  outputSample (-1) 1 1 = -1 ∧ sampleData (-1) = 0xFFFFFFFF#32 ∧
  outputSample 1 1 1 = 0 ∧
  (∀ (a : Nat) (vel : BitVec 7), outputSample 0 a vel = 0) ∧
  (∀ (y : Int) (vel : BitVec 7), outputSample y 0 vel = 0) ∧
  (∀ (y : Int) (a : Nat), outputSample y a 0 = 0)

/-- The spec's derived rule R155: the RENDER that ends the release still outputs its sample, with the amplitude that
tick read; every later one returns 0. -/
def Obligations.LastSampleThenSilence : Prop :=
  ∀ (s : State) (n : Nat), s.voice.seg = .release →
    (s.cfg.env[s.voice.prog.toNat]'s.voice.prog.isLt = 0 ∨ s.cfg.relEnd ≤ s.voice.prog.toNat + 1) →
      ∃ t d, s.after (renders (n + 1)) = .next t ∧ t.voice = Voice.reset ∧
        t.responses = s.responses ++ ⟨.ok, d⟩ :: List.replicate n ⟨.ok, 0⟩ ∧
        d.toInt = Int.fdiv ((oscRender s.cfg s.voice).1 *
          ((s.cfg.env[s.voice.prog.toNat]'s.voice.prog.isLt).toNat : Int) * (s.voice.vel.toNat : Int)) 128

/-- The spec's derived rule R157, the source's round trip, for every number of RENDERs before the NOTE_OFF. -/
def Obligations.NoteRoundTripEndsInTheResetState : Prop :=
  ∀ (s : State) (k m : Nat), s.voice = Voice.reset → s.cfg.relEnd - s.cfg.relStart ≤ m →
    ∃ t u, s.after (.command 0x013C6400#32 :: renders k ++ .command 0x02000000#32 :: renders m) = .next t ∧
      t.voice = Voice.reset ∧
      t.after [.command 0x04000000#32, .command 0x03000000#32] = .next u ∧
      u.voice = Voice.reset ∧ u.responses = t.responses ++ [⟨.ok, 1⟩, ⟨.ok, 0⟩]

/-- R160: ISFREE answers 1 exactly in Idle and changes nothing. -/
def Obligations.IsFreeAnswersWhetherIdle : Prop :=
  ∀ s : State,
    (s.voice.seg = .idle → exec .isFree s = .next (s.answer s.voice .ok 1)) ∧
    (s.voice.seg ≠ .idle → exec .isFree s = .next (s.answer s.voice .ok 0))

/-! ## RDREG (44_register_read.md) -/

/-- R165: each register by its number, zero-extended, `seg` by its code; in Idle (in a state with the invariants) every
register reads 0; IllegalCommand above 5. -/
def Obligations.RdregReadsTheNumberedRegister : Prop :=
  ∀ (s : State) (r : BitVec 8),
    (r.toNat ≤ 5 → ∃ d, exec (.rdreg r) s = .next (s.answer s.voice .ok d) ∧
      (r.toNat = 0 → d.toNat = s.voice.phase.toNat) ∧
      (r.toNat = 1 → d.toNat = s.voice.inc.toNat) ∧
      (r.toNat = 2 → s.voice.seg = .idle → d.toNat = 0) ∧
      (r.toNat = 2 → s.voice.seg = .attack → d.toNat = 1) ∧
      (r.toNat = 2 → s.voice.seg = .decay → d.toNat = 2) ∧
      (r.toNat = 2 → s.voice.seg = .sustain → d.toNat = 3) ∧
      (r.toNat = 2 → s.voice.seg = .release → d.toNat = 4) ∧
      (r.toNat = 3 → d.toNat = s.voice.prog.toNat) ∧
      (r.toNat = 4 → d.toNat = s.voice.note.toNat) ∧
      (r.toNat = 5 → d.toNat = s.voice.vel.toNat) ∧
      (s.Inv → s.voice.seg = .idle → d.toNat = 0)) ∧
    (5 < r.toNat → exec (.rdreg r) s = .next (s.answer s.voice .illegalCommand 0))

/-- R166: RDREG changes no register, its response depends on the registers and `reg8` alone (no parameter and no table
can be read through it), and registers change only through NOTE_ON, NOTE_OFF and RENDER. -/
def Obligations.RdregIsPureAndNoCommandWritesByNumber : Prop :=
  (∀ (s s' : State) (r : BitVec 8),
    s'.voice.phase.toNat = s.voice.phase.toNat → s'.voice.inc = s.voice.inc → s'.voice.seg = s.voice.seg →
    s'.voice.prog = s.voice.prog → s'.voice.note = s.voice.note → s'.voice.vel = s.voice.vel →
      ∃ x, exec (.rdreg r) s = .next { s with responses := s.responses ++ [x] } ∧
        exec (.rdreg r) s' = .next { s' with responses := s'.responses ++ [x] }) ∧
  (∀ (s : State) (i : Instr), ∃ v st d, exec i s = .next (s.answer v st d) ∧
    (v ≠ s.voice → (∃ n vel, i = .noteOn n vel) ∨ i = .noteOff ∨ i = .render))

/-! ## Invariants, frames and isolation (10_state.md, 20_memory.md) -/

/-- The invariants I1, I3 and I4 of the spec's derived rule R33, kept by every step from every state that has them. -/
def Obligations.StepKeepsTheVoiceInvariants : Prop :=
  ∀ s t : State, s.Inv → step s = .next t → t.Inv

/-- The reset state has the invariants. -/
def Obligations.ResetStateHasTheVoiceInvariants : Prop :=
  State.reset.Inv

/-- The width of the phase register (00_scope.md section 3, 10_state.md section 2): `F + 11` bits, at most 27. The phase
modulus fits it, so the advance drops no bit; RDREG of register 0 answers a value of that width in every state, and one
below the modulus in a state with the invariants. -/
def Obligations.PhaseFitsItsRegister : Prop :=
  ∀ s : State,
    s.cfg.fracBits + 11 ≤ 27 ∧ s.cfg.cycLen * 2 ^ s.cfg.fracBits ≤ 2 ^ (s.cfg.fracBits + 11) ∧
    (∀ inc : BitVec 16, (advancePhase s.cfg s.voice.phase inc).toNat =
      (s.voice.phase.toNat + inc.toNat) % (s.cfg.cycLen * 2 ^ s.cfg.fracBits)) ∧
    ∃ d, exec (.rdreg 0) s = .next (s.answer s.voice .ok d) ∧ d.toNat = s.voice.phase.toNat ∧
      d.toNat < 2 ^ (s.cfg.fracBits + 11) ∧
      (s.Inv → d.toNat < s.cfg.cycLen * 2 ^ s.cfg.fracBits)

/-- From 10_state.md (rules R30 and R33 I4, both the spec's derivations): the lifecycle is a function of `seg`, exactly
one of Free, Active and Releasing holds, and under the invariants Free is exactly the reset state. -/
def Obligations.FreeIsExactlyTheResetState : Prop :=
  ∀ s : State, s.Inv →
    (isFreeSeg s.voice.seg = true ↔ s.voice = Voice.reset) ∧
    (isReleasingSeg s.voice.seg = true ↔ s.voice.seg = .release) ∧
    (isActiveSeg s.voice.seg = true ↔ s.voice.seg = .attack ∨ s.voice.seg = .decay ∨ s.voice.seg = .sustain) ∧
    (isActiveSeg s.voice.seg = true ↔ ¬ (isFreeSeg s.voice.seg = true ∨ isReleasingSeg s.voice.seg = true)) ∧
    ¬ (isFreeSeg s.voice.seg = true ∧ isReleasingSeg s.voice.seg = true)

/-- The column "written by" of the table of registers (10_state.md, section 5): the frame of every command. -/
def Obligations.EachRegisterHasItsWriters : Prop :=
  ∀ (s t : State) (i : Instr), exec i s = .next t →
    (t.voice.phase.toNat ≠ s.voice.phase.toNat → i = .render) ∧
    (t.voice.inc ≠ s.voice.inc → (∃ n v, i = .noteOn n v ∧ n.toNat < 128) ∨ (i = .render ∧ t.voice = Voice.reset)) ∧
    (t.voice.seg ≠ s.voice.seg → (∃ n v, i = .noteOn n v ∧ n.toNat < 128) ∨ i = .noteOff ∨ i = .render) ∧
    (t.voice.prog ≠ s.voice.prog → (∃ n v, i = .noteOn n v ∧ n.toNat < 128) ∨ i = .noteOff ∨ i = .render) ∧
    (t.voice.note ≠ s.voice.note → (∃ n v, i = .noteOn n v ∧ n.toNat < 128) ∨ (i = .render ∧ t.voice = Voice.reset)) ∧
    (t.voice.vel ≠ s.voice.vel → (∃ n v, i = .noteOn n v ∧ n.toNat < 128) ∨ (i = .render ∧ t.voice = Voice.reset)) ∧
    ∃ st d, Responds s t st d

/-- From 20_memory.md, section 1 (the spec's derived rule R52): under other tables (the parameters the same) a command
does the same if the tables agree at the entries the command reads: two of `W` and one of `E` for a sounding
RENDER, one of `P` for NOTE_ON and LOOKUP in range, none otherwise. -/
def Obligations.CommandsReadOnlyTheirTableEntries : Prop :=
  ∀ (s t : State) (tables : Tables) (i : Instr), exec i s = .next t →
    (i = .render → s.voice.seg ≠ .idle →
      tables.wave[(cycleIndex s.cfg (oscIdx s.cfg s.voice.phase)).val] =
          s.cfg.wave[(cycleIndex s.cfg (oscIdx s.cfg s.voice.phase)).val] ∧
        tables.wave[(cycleIndex s.cfg (oscIdx s.cfg s.voice.phase + 1)).val] =
          s.cfg.wave[(cycleIndex s.cfg (oscIdx s.cfg s.voice.phase + 1)).val] ∧
        (s.voice.seg ≠ .sustain →
          tables.env[s.voice.prog.toNat]'s.voice.prog.isLt = s.cfg.env[s.voice.prog.toNat]'s.voice.prog.isLt) ∧
        (s.voice.seg = .sustain →
          tables.env[(sustainIndex s.cfg).val] = s.cfg.env[(sustainIndex s.cfg).val])) →
    (∀ n v, i = .noteOn n v → ∀ h : n.toNat < 128, tables.pitch[n.toNat] = s.cfg.pitch[n.toNat]) →
    (∀ n, i = .lookup n → ∀ h : n.toNat < 128, tables.pitch[n.toNat] = s.cfg.pitch[n.toNat]) →
    exec i (s.withTables tables) = .next (t.withTables tables)

/-- From 10_state.md, section 2: no rule's result depends on `note`, which only RDREG register 4 reads. -/
def Obligations.NoteRegisterIsReadOnlyByRdreg : Prop :=
  ∀ (s s' : State) (i : Instr) (m : BitVec 7), i ≠ .rdreg 4 → s' = { s with voice := { s.voice with note := m } } →
    ∃ v st d m', exec i s = .next (s.answer v st d) ∧ exec i s' = .next (s.answer { v with note := m' } st d)

/-- From 70_reset_and_hazards.md, section 3 (the spec's derived rule R198, which names LOOKUP and RDREG), with the rule
of ISFREE (43_voice.md section 4, R160): these commands may be placed before any inputs without changing any later
response or register. That the responses stand in one list, kept over a reset among the inputs, is the model's choice
(log 4). -/
def Obligations.QueriesDoNotDisturbWhatFollows : Prop :=
  ∀ (s : State) (q : Instr) (ins : List Input),
    (q = .isFree ∨ (∃ n, q = .lookup n) ∨ ∃ r, q = .rdreg r) →
      ∃ (v : Voice s.cfg.fracBits) (r : Response) (rs : List Response),
        s.after ins = .next (s.done v rs) ∧
        s.after (.command (encode q) :: ins) = .next (s.done v (r :: rs))

/-! ## The configuration (00_scope.md, 20_memory.md) -/

/-- R53: a byte image of `P` is little-endian; `W` and `E` are one byte an entry, `W` in two's complement. -/
def Obligations.TableImagesAreReadLittleEndian : Prop :=
  ∀ (p : Params) (w e pt : List Byte) (c : Config), configOfImages p w e pt = some c →
    c.toParams = p ∧
    (∀ i, ∀ (h : i < 1152) (h' : i < w.length), waveEntry c ⟨i, h⟩ = (w[i]).toInt) ∧
    (∀ j, ∀ (h : j < 1024) (h' : j < e.length), envEntry c ⟨j, h⟩ = (e[j]).toNat) ∧
    (∀ n, ∀ (h : n < 128) (h0 : 2 * n < pt.length) (h1 : 2 * n + 1 < pt.length),
      (pitchEntry c ⟨n, h⟩).extractLsb' 0 8 = pt[2 * n] ∧ (pitchEntry c ⟨n, h⟩).extractLsb' 8 8 = pt[2 * n + 1])

/-- R9, with the ranges of the parameter table it names and the exact table sizes: a configuration that breaks a
constraint is refused, and no other. -/
def Obligations.IllegalConfigurationIsRefused : Prop :=
  ∀ (p : Params) (w e pt : List Byte),
    (∃ c, configOfImages p w e pt = some c) ↔
      p.fracBits ≤ 16 ∧ p.cycBase ≤ 1151 ∧ 1 ≤ p.cycLen ∧ p.cycLen ≤ 1152 ∧ p.cycBase + p.cycLen ≤ 1152 ∧
      p.attStart < p.decStart ∧ p.decStart < p.susIndex ∧ p.susIndex ≤ 1023 ∧
      p.relStart < p.relEnd ∧ p.relEnd ≤ 1024 ∧
      w.length = 1152 ∧ e.length = 1024 ∧ pt.length = 256
end

