-- ==== Sys2Proof/Laws/Decode.lean ====
section
/-! SUPPORT. The fields of a word in plain arithmetic, and everything the decoder can answer. -/

namespace Sys2Proof

open Machine

@[simp] theorem opField_toNat (w : Word) : (opField w).toNat = w.toNat / 2 ^ 24 := by
  simp only [opField, BitVec.extractLsb'_toNat, Nat.shiftRight_eq_div_pow]
  omega

@[simp] theorem noteField_toNat (w : Word) : (noteField w).toNat = w.toNat / 2 ^ 16 % 2 ^ 8 := by
  simp only [noteField, BitVec.extractLsb'_toNat, Nat.shiftRight_eq_div_pow]

@[simp] theorem regField_toNat (w : Word) : (regField w).toNat = w.toNat / 2 ^ 16 % 2 ^ 8 := by
  simp only [regField, BitVec.extractLsb'_toNat, Nat.shiftRight_eq_div_pow]

@[simp] theorem velField_toNat (w : Word) : (velField w).toNat = w.toNat / 2 ^ 8 % 2 ^ 7 := by
  simp only [velField, BitVec.extractLsb'_toNat, Nat.shiftRight_eq_div_pow]

/-- A mask of the `n` low bits selects them. -/
theorem and_low_mask_eq_zero (w : Word) (n : Nat) (m : Word) (hm : m.toNat = 2 ^ n - 1) :
    w &&& m = 0#32 ↔ w.toNat % 2 ^ n = 0 := by
  rw [← BitVec.toNat_inj, BitVec.toNat_and, hm, Nat.and_two_pow_sub_one_eq_mod]
  simp

/-- NOTE_ON's must-be-zero bits, 15 and 7:0 (R73, format KV). -/
theorem and_noteOn_mask_eq_zero (w : Word) :
    w &&& 0x000080FF#32 = 0#32 ↔ w.toNat % 2 ^ 8 = 0 ∧ w.toNat / 2 ^ 15 % 2 = 0 := by
  have split : w &&& 0x000080FF#32 = (w &&& 0xFF#32) ||| (w &&& 0x8000#32) := by
    rw [← BitVec.and_or_distrib_left]; rfl
  have low := and_low_mask_eq_zero w 8 0xFF#32 (by decide)
  have high : w &&& 0x8000#32 = 0#32 ↔ w.toNat / 2 ^ 15 % 2 = 0 := by
    have e : (0x8000#32) = BitVec.twoPow 32 15 := by decide
    rw [e, BitVec.and_twoPow]
    have t : w.getLsbD 15 = (w.toNat / 2 ^ 15 % 2 == 1) := by
      simp [BitVec.getLsbD, Nat.testBit, Nat.shiftRight_eq_div_pow]
    rw [t]
    rcases Nat.mod_two_eq_zero_or_one (w.toNat / 2 ^ 15) with h | h <;> rw [h] <;> decide
  rw [split, ← low, ← high]
  constructor
  · intro h
    have h0 := congrArg (· &&& 0xFF#32) h
    have h1 := congrArg (· &&& 0x8000#32) h
    simp only [BitVec.and_or_distrib_right, BitVec.and_assoc] at h0 h1
    constructor
    · simpa using h0
    · simpa using h1
  · rintro ⟨h0, h1⟩
    simp [h0, h1]

/-- `checkFormat` answers the instruction it is given, where the must-be-zero bits are zero and it is well formed. -/
theorem checkFormat_eq_instr {w z : Word} {i j : Instr} :
    checkFormat w z i = .instr j ↔ w &&& z = 0#32 ∧ i.wf = true ∧ i = j := by
  unfold checkFormat
  split <;> rename_i hz
  · split <;> rename_i hw <;> simp [hz, hw]
  · simp [hz]

theorem checkFormat_eq_illegal {w z : Word} {i : Instr} :
    (∃ why, checkFormat w z i = .illegal why) ↔ ¬ (w &&& z = 0#32 ∧ i.wf = true) := by
  unfold checkFormat
  split <;> rename_i hz
  · split <;> rename_i hw <;> simp [hz, hw]
  · simp [hz]

theorem decode_noteOn {w : Word} (h : opOf w = 1) :
    decode w = checkFormat w 0x000080FF#32 (.noteOn (noteField w) (velField w)) := by
  simp only [decode, opField_toNat, show w.toNat / 2 ^ 24 = 1 from h]

theorem decode_noteOff {w : Word} (h : opOf w = 2) : decode w = checkFormat w 0x00FFFFFF#32 .noteOff := by
  simp only [decode, opField_toNat, show w.toNat / 2 ^ 24 = 2 from h]

theorem decode_render {w : Word} (h : opOf w = 3) : decode w = checkFormat w 0x00FFFFFF#32 .render := by
  simp only [decode, opField_toNat, show w.toNat / 2 ^ 24 = 3 from h]

theorem decode_isFree {w : Word} (h : opOf w = 4) : decode w = checkFormat w 0x00FFFFFF#32 .isFree := by
  simp only [decode, opField_toNat, show w.toNat / 2 ^ 24 = 4 from h]

theorem decode_lookup {w : Word} (h : opOf w = 5) :
    decode w = checkFormat w 0x0000FFFF#32 (.lookup (noteField w)) := by
  simp only [decode, opField_toNat, show w.toNat / 2 ^ 24 = 5 from h]

theorem decode_rdreg {w : Word} (h : opOf w = 6) :
    decode w = checkFormat w 0x0000FFFF#32 (.rdreg (regField w)) := by
  simp only [decode, opField_toNat, show w.toNat / 2 ^ 24 = 6 from h]

theorem decode_no_opcode {w : Word} (h : opOf w = 0 ∨ 7 ≤ opOf w) : decode w = .illegal .opcode := by
  unfold decode
  rw [opField_toNat]
  have h' : w.toNat / 2 ^ 24 = 0 ∨ 7 ≤ w.toNat / 2 ^ 24 := h
  split <;> first | rfl | omega

/-- The opcode byte is one of the six, or none of them. -/
theorem opOf_cases (w : Word) :
    opOf w = 1 ∨ opOf w = 2 ∨ opOf w = 3 ∨ opOf w = 4 ∨ opOf w = 5 ∨ opOf w = 6 ∨ (opOf w = 0 ∨ 7 ≤ opOf w) := by
  omega

/-- An append is a sum. -/
theorem append_toNat {a b : Nat} (x : BitVec a) (y : BitVec b) :
    (x ++ y).toNat = x.toNat * 2 ^ b + y.toNat := by
  rw [BitVec.toNat_append, ← Nat.shiftLeft_add_eq_or_of_lt y.isLt, Nat.shiftLeft_eq]

theorem encode_noteOn_toNat (n : BitVec 8) (v : BitVec 7) :
    (encode (.noteOn n v)).toNat = 2 ^ 24 + n.toNat * 2 ^ 16 + v.toNat * 2 ^ 8 := by
  simp only [encode, append_toNat, BitVec.toNat_ofNat]
  omega

theorem encode_noteOff_toNat : (encode .noteOff).toNat = 2 * 2 ^ 24 := by decide
theorem encode_render_toNat : (encode .render).toNat = 3 * 2 ^ 24 := by decide
theorem encode_isFree_toNat : (encode .isFree).toNat = 4 * 2 ^ 24 := by decide

theorem encode_lookup_toNat (n : BitVec 8) : (encode (.lookup n)).toNat = 5 * 2 ^ 24 + n.toNat * 2 ^ 16 := by
  simp only [encode, append_toNat, BitVec.toNat_ofNat]
  omega

theorem encode_rdreg_toNat (r : BitVec 8) : (encode (.rdreg r)).toNat = 6 * 2 ^ 24 + r.toNat * 2 ^ 16 := by
  simp only [encode, append_toNat, BitVec.toNat_ofNat]
  omega

end Sys2Proof
end

