-- ==== Sys2Proof/Laws/State.lean ====
section
/-! SUPPORT. One lemma per field per update of the state, and the same for the voice's updates. -/

namespace Sys2Proof.Machine

@[simp] theorem respond_cfg (s : State) (st : Status) (d : Word) : (respond s st d).cfg = s.cfg := rfl
@[simp] theorem respond_voice (s : State) (st : Status) (d : Word) : (respond s st d).voice = s.voice := rfl
@[simp] theorem respond_inputs (s : State) (st : Status) (d : Word) : (respond s st d).inputs = s.inputs := rfl
@[simp] theorem respond_responses (s : State) (st : Status) (d : Word) :
    (respond s st d).responses = s.responses ++ [⟨st, d⟩] := rfl

@[simp] theorem fail_cfg (s : State) (st : Status) : (fail s st).cfg = s.cfg := rfl
@[simp] theorem fail_voice (s : State) (st : Status) : (fail s st).voice = s.voice := rfl
@[simp] theorem fail_inputs (s : State) (st : Status) : (fail s st).inputs = s.inputs := rfl
@[simp] theorem fail_responses (s : State) (st : Status) :
    (fail s st).responses = s.responses ++ [⟨st, 0#32⟩] := rfl

@[simp] theorem withVoice_cfg (s : State) (v : Voice s.cfg.fracBits) : (withVoice s v).cfg = s.cfg := rfl
@[simp] theorem withVoice_voice (s : State) (v : Voice s.cfg.fracBits) : (withVoice s v).voice = v := rfl
@[simp] theorem withVoice_inputs (s : State) (v : Voice s.cfg.fracBits) : (withVoice s v).inputs = s.inputs := rfl
@[simp] theorem withVoice_responses (s : State) (v : Voice s.cfg.fracBits) : (withVoice s v).responses = s.responses := rfl

@[simp] theorem applyReset_cfg (s : State) : (applyReset s).cfg = s.cfg := rfl
@[simp] theorem applyReset_voice (s : State) : (applyReset s).voice = Voice.reset := rfl
@[simp] theorem applyReset_inputs (s : State) : (applyReset s).inputs = s.inputs := rfl
@[simp] theorem applyReset_responses (s : State) : (applyReset s).responses = s.responses := rfl

@[simp] theorem presentCommand_cfg (s : State) (w : Word) : (presentCommand s w).cfg = s.cfg := rfl
@[simp] theorem presentCommand_voice (s : State) (w : Word) : (presentCommand s w).voice = s.voice := rfl
@[simp] theorem presentCommand_inputs (s : State) (w : Word) :
    (presentCommand s w).inputs = .command w :: s.inputs := rfl
@[simp] theorem presentCommand_responses (s : State) (w : Word) :
    (presentCommand s w).responses = s.responses := rfl

@[simp] theorem answer_responses (s : State) (v : Voice s.cfg.fracBits) (st : Status) (d : Word) :
    (s.answer v st d).responses = s.responses ++ [⟨st, d⟩] := rfl
@[simp] theorem done_responses (s : State) (v : Voice s.cfg.fracBits) (rs : List Response) :
    (s.done v rs).responses = s.responses ++ rs := rfl

@[simp] theorem feed_cfg (s : State) (ins : List Input) : (s.feed ins).cfg = s.cfg := rfl
@[simp] theorem feed_voice (s : State) (ins : List Input) : (s.feed ins).voice = s.voice := rfl
@[simp] theorem feed_inputs (s : State) (ins : List Input) : (s.feed ins).inputs = ins := rfl
@[simp] theorem feed_responses (s : State) (ins : List Input) : (s.feed ins).responses = s.responses := rfl

@[simp] theorem enterSegment_phase {F : Nat} (v : Voice F) (g : Segment) (j : Nat) : (enterSegment v g j).phase = v.phase := rfl
@[simp] theorem enterSegment_inc {F : Nat} (v : Voice F) (g : Segment) (j : Nat) : (enterSegment v g j).inc = v.inc := rfl
@[simp] theorem enterSegment_seg {F : Nat} (v : Voice F) (g : Segment) (j : Nat) : (enterSegment v g j).seg = g := rfl
@[simp] theorem enterSegment_note {F : Nat} (v : Voice F) (g : Segment) (j : Nat) : (enterSegment v g j).note = v.note := rfl
@[simp] theorem enterSegment_vel {F : Nat} (v : Voice F) (g : Segment) (j : Nat) : (enterSegment v g j).vel = v.vel := rfl

/-- The index a segment is entered at is held exactly where ten bits hold it. -/
theorem enterSegment_prog {F : Nat} (v : Voice F) (g : Segment) {j : Nat} (h : j < 1024) :
    (enterSegment v g j).prog.toNat = j := by
  simp only [enterSegment, BitVec.toNat_ofNat]
  omega

@[simp] theorem reset_voice : State.reset.voice = Voice.reset := rfl
@[simp] theorem Voice.reset_seg {F : Nat} : (Voice.reset : Voice F).seg = .idle := rfl
@[simp] theorem Voice.reset_phase {F : Nat} : (Voice.reset : Voice F).phase = 0 := rfl
@[simp] theorem Voice.reset_inc {F : Nat} : (Voice.reset : Voice F).inc = 0 := rfl
@[simp] theorem Voice.reset_prog {F : Nat} : (Voice.reset : Voice F).prog = 0 := rfl
@[simp] theorem Voice.reset_note {F : Nat} : (Voice.reset : Voice F).note = 0 := rfl
@[simp] theorem Voice.reset_vel {F : Nat} : (Voice.reset : Voice F).vel = 0 := rfl

end Sys2Proof.Machine
end

