-- ==== Sys2Proof/Laws/Oscillator.lean ====
section
/-! SUPPORT. What the oscillator's operations do: rounding, index formation, the phase advance. -/

namespace Sys2Proof.Machine

/-- `floorDiv` is the floor: below or at the quotient, and less than one below it (R11). -/
theorem floorDiv_spec (a : Int) {b : Nat} (hb : 0 < b) :
    floorDiv a b * b ≤ a ∧ a < (floorDiv a b + 1) * b := by
  have hb' : (0 : Int) < b := by exact_mod_cast hb
  constructor
  · exact Int.ediv_mul_le a (ne_of_gt hb')
  · exact Int.lt_ediv_add_one_mul_self a hb'

theorem floorDiv_eq_fdiv (a : Int) (b : Nat) : floorDiv a b = Int.fdiv a b :=
  (Int.fdiv_eq_ediv_of_nonneg a (Int.natCast_nonneg b)).symm

theorem waveEntry_bounds (c : Config) (i : Fin 1152) : -128 ≤ waveEntry c i ∧ waveEntry c i ≤ 127 := by
  unfold waveEntry
  constructor
  · exact BitVec.le_toInt _
  · exact Int.le_of_lt_add_one BitVec.toInt_lt

theorem envEntry_le (c : Config) (j : Fin 1024) : envEntry c j ≤ 255 :=
  Nat.le_of_lt_succ (c.env[j.val]).isLt

theorem phaseMod_pos (c : Config) : 0 < phaseMod c :=
  Nat.mul_pos c.cycLen_pos (Nat.two_pow_pos _)

/-- The phase modulus fits the phase register (R10: 1152 < 2048 = 2^11). -/
theorem phaseMod_lt (c : Config) : phaseMod c < 2 ^ (c.fracBits + 11) := by
  have h := Nat.mul_le_mul_right (2 ^ c.fracBits) c.cycLen_le
  have hp : 0 < 2 ^ c.fracBits := Nat.two_pow_pos _
  unfold phaseMod
  rw [Nat.pow_add]
  omega

/-- The advance is the true modulo: the register drops no bit of it (R104). -/
theorem advancePhase_toNat (c : Config) (p : BitVec (c.fracBits + 11)) (i : BitVec 16) :
    (advancePhase c p i).toNat = (p.toNat + i.toNat) % phaseMod c := by
  have h := Nat.mod_lt (p.toNat + i.toNat) (phaseMod_pos c)
  have h' := phaseMod_lt c
  simp only [advancePhase, BitVec.toNat_ofNat]
  exact Nat.mod_eq_of_lt (by omega)

theorem advancePhase_lt (c : Config) (p : BitVec (c.fracBits + 11)) (i : BitVec 16) :
    (advancePhase c p i).toNat < phaseMod c := by
  rw [advancePhase_toNat]
  exact Nat.mod_lt _ (phaseMod_pos c)

theorem oscIdx_lt (c : Config) (p : BitVec (c.fracBits + 11)) : oscIdx c p < c.cycLen := Nat.mod_lt _ c.cycLen_pos

theorem cycleIndex_val (c : Config) (k : Nat) : (cycleIndex c k).val = c.cycBase + k % c.cycLen := rfl

@[simp] theorem oscRender_phase (c : Config) (v : Voice c.fracBits) : (oscRender c v).2.phase = advancePhase c v.phase v.inc := rfl
@[simp] theorem oscRender_inc (c : Config) (v : Voice c.fracBits) : (oscRender c v).2.inc = v.inc := rfl
@[simp] theorem oscRender_seg (c : Config) (v : Voice c.fracBits) : (oscRender c v).2.seg = v.seg := rfl
@[simp] theorem oscRender_prog (c : Config) (v : Voice c.fracBits) : (oscRender c v).2.prog = v.prog := rfl
@[simp] theorem oscRender_note (c : Config) (v : Voice c.fracBits) : (oscRender c v).2.note = v.note := rfl
@[simp] theorem oscRender_vel (c : Config) (v : Voice c.fracBits) : (oscRender c v).2.vel = v.vel := rfl

/-- The sample depends on the phase alone (R110). -/
theorem oscRender_sample_congr (c : Config) {v v' : Voice c.fracBits} (h : v'.phase = v.phase) :
    (oscRender c v').1 = (oscRender c v).1 := by
  simp only [oscRender, h]

/-- An interpolated value lies between its entries (R103). -/
theorem interpolate_between (c : Config) (s0 s1 : Int) {frac : Nat} (hf : frac < 2 ^ c.fracBits) :
    (s0 ≤ s1 → s0 ≤ interpolate c s0 s1 frac ∧ interpolate c s0 s1 frac ≤ s1) ∧
    (s1 ≤ s0 → s1 ≤ interpolate c s0 s1 frac ∧ interpolate c s0 s1 frac ≤ s0) := by
  have hp : 0 < 2 ^ c.fracBits := Nat.two_pow_pos _
  obtain ⟨lo, hi⟩ := floorDiv_spec ((s1 - s0) * (frac : Int)) hp
  have hf' : ((frac : Nat) : Int) + 1 ≤ ((2 ^ c.fracBits : Nat) : Int) := by exact_mod_cast hf
  have h0 : (0 : Int) ≤ (frac : Int) := Int.natCast_nonneg _
  unfold interpolate
  generalize floorDiv ((s1 - s0) * (frac : Int)) (2 ^ c.fracBits) = q at *
  generalize ((2 ^ c.fracBits : Nat) : Int) = m at *
  generalize ((frac : Nat) : Int) = f at *
  constructor
  · intro h
    constructor
    · have : 0 ≤ q := by
        by_contra hn
        have : q + 1 ≤ 0 := by omega
        nlinarith
      omega
    · have : q ≤ s1 - s0 := by
        by_contra hn
        have : s1 - s0 + 1 ≤ q := by omega
        nlinarith
      omega
  · intro h
    constructor
    · have : s1 - s0 ≤ q := by
        by_contra hn
        have : q + 1 ≤ s1 - s0 := by omega
        nlinarith
      omega
    · have : q ≤ 0 := by
        by_contra hn
        have : 1 ≤ q := by omega
        nlinarith
      omega

/-- Every sample is 8 bits signed (R103, R105). -/
theorem oscRender_bounds (c : Config) (v : Voice c.fracBits) : -128 ≤ (oscRender c v).1 ∧ (oscRender c v).1 ≤ 127 := by
  have b0 := waveEntry_bounds c (cycleIndex c (oscIdx c v.phase))
  have b1 := waveEntry_bounds c (cycleIndex c (oscIdx c v.phase + 1))
  have hf : oscFrac c v.phase < 2 ^ c.fracBits := Nat.mod_lt _ (Nat.two_pow_pos _)
  have hb := interpolate_between c (waveEntry c (cycleIndex c (oscIdx c v.phase)))
    (waveEntry c (cycleIndex c (oscIdx c v.phase + 1))) hf
  have he : (oscRender c v).1 = interpolate c (waveEntry c (cycleIndex c (oscIdx c v.phase)))
    (waveEntry c (cycleIndex c (oscIdx c v.phase + 1))) (oscFrac c v.phase) := rfl
  rw [he]
  rcases le_total (waveEntry c (cycleIndex c (oscIdx c v.phase)))
    (waveEntry c (cycleIndex c (oscIdx c v.phase + 1))) with h | h
  · have := hb.1 h; omega
  · have := hb.2 h; omega

end Sys2Proof.Machine
end

