-- ==== Sys2Proof/Laws/Envelope.lean ====
section
/-! SUPPORT. What ENV_TICK does, case by case. -/

namespace Sys2Proof.Machine

theorem envTick_idle {c : Config} {v : Voice c.fracBits} (h : v.seg = .idle) : envTick c v = (0, v) := by
  simp only [envTick, h]

theorem envTick_attack_end {c : Config} {v : Voice c.fracBits} (h : v.seg = .attack) (e : c.decStart ≤ v.prog.toNat + 1) :
    envTick c v = (envEntry c (progIndex v), enterSegment v .decay c.decStart) := by
  simp only [envTick, h, ge_iff_le, if_pos e]

theorem envTick_attack_on {c : Config} {v : Voice c.fracBits} (h : v.seg = .attack) (e : v.prog.toNat + 1 < c.decStart) :
    envTick c v = (envEntry c (progIndex v), enterSegment v .attack (v.prog.toNat + 1)) := by
  simp only [envTick, h, ge_iff_le, if_neg (Nat.not_le.mpr e)]

theorem envTick_decay_end {c : Config} {v : Voice c.fracBits} (h : v.seg = .decay) (e : c.susIndex ≤ v.prog.toNat + 1) :
    envTick c v = (envEntry c (progIndex v), enterSegment v .sustain c.susIndex) := by
  simp only [envTick, h, ge_iff_le, if_pos e]

theorem envTick_decay_on {c : Config} {v : Voice c.fracBits} (h : v.seg = .decay) (e : v.prog.toNat + 1 < c.susIndex) :
    envTick c v = (envEntry c (progIndex v), enterSegment v .decay (v.prog.toNat + 1)) := by
  simp only [envTick, h, ge_iff_le, if_neg (Nat.not_le.mpr e)]

theorem envTick_sustain {c : Config} {v : Voice c.fracBits} (h : v.seg = .sustain) :
    envTick c v = (envEntry c (sustainIndex c), v) := by
  simp only [envTick, h]

theorem envTick_release_end {c : Config} {v : Voice c.fracBits} (h : v.seg = .release)
    (e : envEntry c (progIndex v) = 0 ∨ c.relEnd ≤ v.prog.toNat + 1) :
    envTick c v = (envEntry c (progIndex v), { v with seg := .idle }) := by
  simp only [envTick, h, ge_iff_le, if_pos e]

theorem envTick_release_on {c : Config} {v : Voice c.fracBits} (h : v.seg = .release)
    (e : envEntry c (progIndex v) ≠ 0) (e' : v.prog.toNat + 1 < c.relEnd) :
    envTick c v = (envEntry c (progIndex v), enterSegment v .release (v.prog.toNat + 1)) := by
  have n : ¬ (envEntry c (progIndex v) = 0 ∨ c.relEnd ≤ v.prog.toNat + 1) := by omega
  simp only [envTick, h, ge_iff_le, if_neg n]

/-- Everything a tick can do: the amplitude is 0 to 255, the four other registers are kept, and the segment stays or
moves by one of R125's three transitions. -/
theorem envTick_cases (c : Config) (v : Voice c.fracBits) :
    (envTick c v).1 ≤ 255 ∧
    (envTick c v).2.phase = v.phase ∧ (envTick c v).2.inc = v.inc ∧
    (envTick c v).2.note = v.note ∧ (envTick c v).2.vel = v.vel ∧
    ((envTick c v).2.seg = v.seg ∨ (v.seg = .attack ∧ (envTick c v).2.seg = .decay) ∨
      (v.seg = .decay ∧ (envTick c v).2.seg = .sustain) ∨ (v.seg = .release ∧ (envTick c v).2.seg = .idle)) := by
  rcases hs : v.seg
  · simp [envTick_idle hs, hs]
  · rcases Nat.lt_or_ge (v.prog.toNat + 1) c.decStart with e | e
    · simp [envTick_attack_on hs e, envEntry_le]
    · simp [envTick_attack_end hs e, envEntry_le]
  · rcases Nat.lt_or_ge (v.prog.toNat + 1) c.susIndex with e | e
    · simp [envTick_decay_on hs e, envEntry_le]
    · simp [envTick_decay_end hs e, envEntry_le]
  · simp [envTick_sustain hs, hs, envEntry_le]
  · by_cases e : envEntry c (progIndex v) = 0 ∨ c.relEnd ≤ v.prog.toNat + 1
    · simp [envTick_release_end hs e, envEntry_le]
    · rw [not_or, Nat.not_le] at e
      simp [envTick_release_on hs e.1 e.2, envEntry_le]

/-- A tick reads and writes `seg` and `prog` only, so the oscillator's write before it is not seen (R151). -/
theorem envTick_withPhase (c : Config) (v : Voice c.fracBits) (p : BitVec (c.fracBits + 11)) :
    envTick c { v with phase := p } = ((envTick c v).1, { (envTick c v).2 with phase := p }) := by
  obtain ⟨phase, inc, seg, prog, note, vel⟩ := v
  cases seg
  · rfl
  · simp only [envTick, progIndex, enterSegment]; split <;> rfl
  · simp only [envTick, progIndex, enterSegment]; split <;> rfl
  · rfl
  · by_cases e : envEntry c ⟨prog.toNat, prog.isLt⟩ = 0 ∨ c.relEnd ≤ prog.toNat + 1
    · have h := envTick_release_end (c := c) (v := ⟨phase, inc, .release, prog, note, vel⟩) rfl e
      have h' := envTick_release_end (c := c) (v := ⟨p, inc, .release, prog, note, vel⟩) rfl e
      rw [h]
      exact h'
    · rw [not_or, Nat.not_le] at e
      have h := envTick_release_on (c := c) (v := ⟨phase, inc, .release, prog, note, vel⟩) rfl e.1 e.2
      have h' := envTick_release_on (c := c) (v := ⟨p, inc, .release, prog, note, vel⟩) rfl e.1 e.2
      rw [h]
      exact h'

end Sys2Proof.Machine
end

