-- ==== Sys2Proof/Laws/PerInstr.lean ====
section
/-! SUPPORT. Statements for all instructions, one lemma a constructor: the word an instruction is encoded by carries
its row's opcode of R75 and no must-be-zero bit of its format is set (R73). -/

namespace Sys2Proof.Laws.OpcodeRow

open Machine

/-- The `op` column of R75. -/
def opcode : Instr → Nat
  | .noteOn _ _ => 0x01
  | .noteOff => 0x02
  | .render => 0x03
  | .isFree => 0x04
  | .lookup _ => 0x05
  | .rdreg _ => 0x06

/-- An encoded instruction carries its row's opcode, and the must-be-zero bits are zero. -/
def Statement (i : Instr) : Prop := opOf (encode i) = opcode i ∧ ¬ ZeroBitSet (encode i)

theorem noteOn (note8 : BitVec 8) (vel7 : BitVec 7) : Statement (.noteOn note8 vel7) := by
  have h := note8.isLt
  have h' := vel7.isLt
  simp only [Statement, opOf, ZeroBitSet, encode_noteOn_toNat, opcode]
  omega

theorem noteOff : Statement .noteOff := by unfold Statement; decide

theorem render : Statement .render := by unfold Statement; decide

theorem isFree : Statement .isFree := by unfold Statement; decide

theorem lookup (note8 : BitVec 8) : Statement (.lookup note8) := by
  have h := note8.isLt
  simp only [Statement, opOf, ZeroBitSet, encode_lookup_toNat, opcode]
  omega

theorem rdreg (reg8 : BitVec 8) : Statement (.rdreg reg8) := by
  have h := reg8.isLt
  simp only [Statement, opOf, ZeroBitSet, encode_rdreg_toNat, opcode]
  omega

end Sys2Proof.Laws.OpcodeRow
end

