-- ==== Sys2Proof/Laws/Voice.lean ====
section
/-! SUPPORT. One spec lemma for each command's meaning: everything it can answer. -/

namespace Sys2Proof.Machine

theorem noteIndex_some {n : BitVec 8} (h : n.toNat < 128) : noteIndex n = some ⟨n.toNat, h⟩ := by
  simp only [noteIndex, dif_pos h]

theorem noteIndex_none {n : BitVec 8} (h : 127 < n.toNat) : noteIndex n = none := by
  simp only [noteIndex, dif_neg (by omega : ¬ n.toNat < 128)]

theorem isFreeSeg_iff {g : Segment} : isFreeSeg g = true ↔ g = .idle := by cases g <;> decide

theorem isReleasingSeg_iff {g : Segment} : isReleasingSeg g = true ↔ g = .release := by cases g <;> decide

theorem isActiveSeg_iff {g : Segment} : isActiveSeg g = true ↔ g = .attack ∨ g = .decay ∨ g = .sustain := by
  cases g <;> decide

theorem execNoteOn_inRange {n : BitVec 8} (v : BitVec 7) (s : State) (h : n.toNat < 128) :
    execNoteOn n v s = .next (respond (withVoice s
      { enterSegment s.voice .attack s.cfg.attStart with
        inc := pitchEntry s.cfg ⟨n.toNat, h⟩, note := n.setWidth 7, vel := v }) .ok 0#32) := by
  simp only [execNoteOn, noteIndex_some h]

theorem execNoteOn_outOfRange {n : BitVec 8} (v : BitVec 7) (s : State) (h : 127 < n.toNat) :
    execNoteOn n v s = .next (fail s .outOfRangeNote) := by
  simp only [execNoteOn, noteIndex_none h]

theorem execNoteOff_active {s : State} (h : isActiveSeg s.voice.seg = true) :
    execNoteOff s = .next (respond (withVoice s (enterSegment s.voice .release s.cfg.relStart)) .ok 0#32) := by
  unfold execNoteOff
  cases hs : s.voice.seg <;> simp_all [isActiveSeg, isFreeSeg, isReleasingSeg]

theorem execNoteOff_inactive {s : State} (h : s.voice.seg = .idle ∨ s.voice.seg = .release) :
    execNoteOff s = .next (fail s .invalidState) := by
  unfold execNoteOff
  rcases h with h | h <;> simp [h, isFreeSeg, isReleasingSeg]

theorem execRender_idle {s : State} (h : s.voice.seg = .idle) : execRender s = .next (respond s .ok 0#32) := by
  simp [execRender, h, isFreeSeg]

/-- A sounding RENDER (R151): the oscillator's phase, the tick's segment and index, then release-complete. -/
theorem execRender_sounding {s : State} (h : s.voice.seg ≠ .idle) :
    execRender s = .next (respond
      (withVoice s (clearIfIdle { (envTick s.cfg s.voice).2 with phase := advancePhase s.cfg s.voice.phase s.voice.inc }))
      .ok (sampleData (outputSample (oscRender s.cfg s.voice).1 (envTick s.cfg s.voice).1 s.voice.vel))) := by
  have hf : isFreeSeg s.voice.seg = false := by
    cases hs : s.voice.seg <;> simp_all [isFreeSeg]
  have ht : envTick s.cfg (oscRender s.cfg s.voice).2 =
      ((envTick s.cfg s.voice).1,
        { (envTick s.cfg s.voice).2 with phase := advancePhase s.cfg s.voice.phase s.voice.inc }) :=
    envTick_withPhase s.cfg s.voice _
  simp only [execRender, hf, ht, Bool.false_eq_true, if_false, (envTick_cases s.cfg s.voice).2.2.2.2.1]

theorem clearIfIdle_idle {F : Nat} {v : Voice F} (h : v.seg = .idle) : clearIfIdle v = Voice.reset := by
  simp [clearIfIdle, h, isFreeSeg, Voice.reset]

theorem clearIfIdle_sounding {F : Nat} {v : Voice F} (h : v.seg ≠ .idle) : clearIfIdle v = v := by
  have hf : isFreeSeg v.seg = false := by cases hs : v.seg <;> simp_all [isFreeSeg]
  simp [clearIfIdle, hf]

/-- Release-complete writes the other five registers, never `seg` (R153). -/
theorem clearIfIdle_seg {F : Nat} (v : Voice F) : (clearIfIdle v).seg = v.seg := by
  by_cases h : v.seg = .idle
  · rw [clearIfIdle_idle h, h, Voice.reset_seg]
  · rw [clearIfIdle_sounding h]

/-- The output fits 16 bits signed (R152). -/
theorem outputSample_bounds {y : Int} {a : Nat} (vel : BitVec 7) (h1 : -128 ≤ y) (h2 : y ≤ 127) (ha : a ≤ 255) :
    -32385 ≤ outputSample y a vel ∧ outputSample y a vel ≤ 32131 := by
  have hv : (vel.toNat : Int) ≤ 127 := by have := vel.isLt; omega
  have hv0 : (0 : Int) ≤ vel.toNat := Int.natCast_nonneg _
  have ha' : (a : Int) ≤ 255 := by exact_mod_cast ha
  have ha0 : (0 : Int) ≤ (a : Int) := Int.natCast_nonneg _
  have k0 : 0 ≤ (a : Int) * vel.toNat := mul_nonneg ha0 hv0
  have k1 : (a : Int) * vel.toNat ≤ 255 * 127 := mul_le_mul ha' hv hv0 (by decide)
  have lo : -4145280 ≤ y * (a : Int) * vel.toNat := by rw [mul_assoc]; nlinarith
  have hi : y * (a : Int) * vel.toNat ≤ 4112895 := by rw [mul_assoc]; nlinarith
  unfold outputSample floorDiv
  constructor <;> omega

/-- `sext_32` loses nothing of a value that fits (R11). -/
theorem sampleData_toInt {x : Int} (h1 : -2 ^ 31 ≤ x) (h2 : x < 2 ^ 31) : (sampleData x).toInt = x := by
  unfold sampleData
  rw [BitVec.toInt_ofInt]
  exact Int.bmod_eq_of_le (by omega) (by omega)

theorem execIsFree_eq (s : State) :
    execIsFree s = .next (respond s .ok (if s.voice.seg = .idle then 1#32 else 0#32)) := by
  unfold execIsFree
  cases hs : s.voice.seg <;> simp [isFreeSeg]

theorem execLookup_inRange {n : BitVec 8} (s : State) (h : n.toNat < 128) :
    execLookup n s = .next (respond s .ok ((pitchEntry s.cfg ⟨n.toNat, h⟩).setWidth 32)) := by
  simp only [execLookup, noteIndex_some h]

theorem execLookup_outOfRange {n : BitVec 8} (s : State) (h : 127 < n.toNat) :
    execLookup n s = .next (fail s .outOfRangeNote) := by
  simp only [execLookup, noteIndex_none h]

theorem readRegister_none {F : Nat} {v : Voice F} {r : BitVec 8} (h : 5 < r.toNat) : readRegister v r = none := by
  unfold readRegister
  split <;> first | rfl | omega

theorem readRegister_some {F : Nat} (v : Voice F) {r : BitVec 8} (h : r.toNat ≤ 5) : ∃ d, readRegister v r = some d := by
  have c : r.toNat = 0 ∨ r.toNat = 1 ∨ r.toNat = 2 ∨ r.toNat = 3 ∨ r.toNat = 4 ∨ r.toNat = 5 := by omega
  unfold readRegister
  rcases c with h | h | h | h | h | h <;> rw [h] <;> exact ⟨_, rfl⟩

/-- RDREG of a register that exists answers it, and nothing else is written. -/
theorem execRdreg_cases (r : BitVec 8) (s : State) :
    (r.toNat ≤ 5 ∧ ∃ d, readRegister s.voice r = some d ∧ execRdreg r s = .next (respond s .ok d)) ∨
    (5 < r.toNat ∧ execRdreg r s = .next (fail s .illegalCommand)) := by
  rcases Nat.lt_or_ge 5 r.toNat with h | h
  · exact .inr ⟨h, by simp only [execRdreg, readRegister_none h]⟩
  · obtain ⟨d, hd⟩ := readRegister_some s.voice h
    exact .inl ⟨h, d, hd, by simp only [execRdreg, hd]⟩

end Sys2Proof.Machine
end

