-- ==== Sys2Proof/Laws/Step.lean ====
section
/-! SUPPORT. Everything a command, a step and a run can do, said once: what each writes is a function of the
configuration, the registers and the input alone. -/

namespace Sys2Proof.Machine

/-- The registers after a command and its response, as a function of the configuration and the registers. -/
def effect (c : Config) (v : Voice c.fracBits) : Instr → Voice c.fracBits × Response
  | .noteOn n vel =>
    if h : n.toNat < 128 then
      ({ enterSegment v .attack c.attStart with
          inc := pitchEntry c ⟨n.toNat, h⟩, note := n.setWidth 7, vel := vel }, ⟨.ok, 0#32⟩)
    else (v, ⟨.outOfRangeNote, 0#32⟩)
  | .noteOff =>
    if v.seg = .idle ∨ v.seg = .release then (v, ⟨.invalidState, 0#32⟩)
    else (enterSegment v .release c.relStart, ⟨.ok, 0#32⟩)
  | .render =>
    if v.seg = .idle then (v, ⟨.ok, 0#32⟩)
    else
      (clearIfIdle { (envTick c v).2 with phase := advancePhase c v.phase v.inc },
        ⟨.ok, sampleData (outputSample (oscRender c v).1 (envTick c v).1 v.vel)⟩)
  | .isFree => (v, ⟨.ok, if v.seg = .idle then 1#32 else 0#32⟩)
  | .lookup n =>
    if h : n.toNat < 128 then (v, ⟨.ok, (pitchEntry c ⟨n.toNat, h⟩).setWidth 32⟩)
    else (v, ⟨.outOfRangeNote, 0#32⟩)
  | .rdreg r =>
    match readRegister v r with
    | some d => (v, ⟨.ok, d⟩)
    | none => (v, ⟨.illegalCommand, 0#32⟩)

/-- Every command completes: it writes registers as `effect` says, appends one response, and leaves the configuration
and the inputs (R63, R70). -/
theorem exec_eq (i : Instr) (s : State) :
    exec i s = .next { s with
      voice := (effect s.cfg s.voice i).1
      responses := s.responses ++ [(effect s.cfg s.voice i).2] } := by
  cases i with
  | noteOn n v =>
    rcases Nat.lt_or_ge n.toNat 128 with h | h
    · simp only [exec, execNoteOn_inRange v s h, effect, dif_pos h]; rfl
    · simp only [exec, execNoteOn_outOfRange v s (show 127 < n.toNat by omega), effect,
        dif_neg (show ¬ n.toNat < 128 by omega)]; rfl
  | noteOff =>
    by_cases h : s.voice.seg = .idle ∨ s.voice.seg = .release
    · simp only [exec, execNoteOff_inactive h, effect, if_pos h]; rfl
    · have h' : isActiveSeg s.voice.seg = true := by
        cases hs : s.voice.seg <;> simp_all [isActiveSeg]
      simp only [exec, execNoteOff_active h', effect, if_neg h]; rfl
  | render =>
    by_cases h : s.voice.seg = .idle
    · simp only [exec, execRender_idle h, effect, if_pos h]; rfl
    · simp only [exec, execRender_sounding h, effect, if_neg h]; rfl
  | isFree => simp only [exec, execIsFree_eq, effect]; rfl
  | lookup n =>
    rcases Nat.lt_or_ge n.toNat 128 with h | h
    · simp only [exec, execLookup_inRange s h, effect, dif_pos h]; rfl
    · simp only [exec, execLookup_outOfRange s (show 127 < n.toNat by omega), effect,
        dif_neg (show ¬ n.toNat < 128 by omega)]; rfl
  | rdreg r =>
    simp only [exec, execRdreg, effect]
    cases readRegister s.voice r <;> rfl

/-- A command whose status is not OK writes no register and its data is 0 (R175). -/
theorem effect_error (c : Config) (v : Voice c.fracBits) (i : Instr) (h : (effect c v i).2.status ≠ .ok) :
    (effect c v i).1 = v ∧ (effect c v i).2.data = 0 := by
  revert h
  cases i with
  | noteOn n vel => simp only [effect]; split <;> simp
  | noteOff => simp only [effect]; split <;> simp
  | render => simp only [effect]; split <;> simp
  | isFree => simp [effect]
  | lookup n => simp only [effect]; split <;> simp
  | rdreg r => simp only [effect]; cases readRegister v r <;> simp

/-- The registers after one input, and the responses it is answered with: none for the reset input. -/
def inputEffect (c : Config) (v : Voice c.fracBits) : Input → Voice c.fracBits × List Response
  | .reset => (Voice.reset, [])
  | .command w =>
    match decode w with
    | .instr i => ((effect c v i).1, [(effect c v i).2])
    | .illegal _ => (v, [⟨.illegalCommand, 0#32⟩])

/-- Everything a step can do when an input is presented. -/
theorem step_eq {s : State} {x : Input} {rest : List Input} (h : s.inputs = x :: rest) :
    step s = .next { s with
      inputs := rest
      voice := (inputEffect s.cfg s.voice x).1
      responses := s.responses ++ (inputEffect s.cfg s.voice x).2 } := by
  cases x with
  | reset => simp [step, takeInput, h, inputEffect, applyReset, withVoice]
  | command w =>
    simp only [step, takeInput, h, inputEffect]
    cases hd : decode w with
    | instr i => simp [exec_eq]
    | illegal why => simp [fail, respond]

theorem step_nothing {s : State} (h : s.inputs = []) : step s = .next s := by
  simp only [step, takeInput, h]

/-- The registers after a sequence of inputs, and all its responses. -/
def runEffect (c : Config) : List Input → Voice c.fracBits → Voice c.fracBits × List Response
  | [], v => (v, [])
  | x :: ins, v =>
    ((runEffect c ins (inputEffect c v x).1).1,
      (inputEffect c v x).2 ++ (runEffect c ins (inputEffect c v x).1).2)

/-- Everything a run can do: it never stops, and what it leaves is a function of the configuration, the registers and
the inputs. -/
theorem after_eq (s : State) (ins : List Input) :
    s.after ins = .next { s with
      inputs := []
      voice := (runEffect s.cfg ins s.voice).1
      responses := s.responses ++ (runEffect s.cfg ins s.voice).2 } := by
  induction ins generalizing s with
  | nil => simp only [runEffect, List.append_nil]; rfl
  | cons x ins ih =>
    have hs := step_eq (s := s.feed (x :: ins)) rfl
    have := ih { s with
      voice := (inputEffect s.cfg s.voice x).1
      responses := s.responses ++ (inputEffect s.cfg s.voice x).2 }
    simp only [State.after, List.length_cons, Host.Core.run, core] at hs this ⊢
    rw [hs]
    simp only [State.feed] at this ⊢
    rw [this]
    simp [runEffect]

theorem runEffect_append (c : Config) (xs ys : List Input) (v : Voice c.fracBits) :
    runEffect c (xs ++ ys) v =
      ((runEffect c ys (runEffect c xs v).1).1, (runEffect c xs v).2 ++ (runEffect c ys (runEffect c xs v).1).2) := by
  induction xs generalizing v with
  | nil => simp [runEffect]
  | cons x xs ih => simp [runEffect, ih]

theorem renders_succ (n : Nat) : renders (n + 1) = .command 0x03000000#32 :: renders n := rfl

theorem renders_add (m n : Nat) : renders (m + n) = renders m ++ renders n :=
  List.replicate_add ..

theorem inputEffect_render (c : Config) (v : Voice c.fracBits) :
    inputEffect c v (.command 0x03000000#32) = ((effect c v .render).1, [(effect c v .render).2]) := rfl

theorem runEffect_render (c : Config) (n : Nat) (v : Voice c.fracBits) :
    runEffect c (renders (n + 1)) v =
      ((runEffect c (renders n) (effect c v .render).1).1,
        (effect c v .render).2 :: (runEffect c (renders n) (effect c v .render).1).2) := rfl

end Sys2Proof.Machine
end

