-- ==== Sys2Proof/Tests/Slice0.lean ====
section
/-! SUPPORT. The model's own tests, expected values from spec/95_test_vectors.md (derived there from the rules, not run
on hardware), and for every statement with hypotheses a concrete state and operands that meet them. -/

namespace Sys2Proof.Tests

open Machine

/-! ## The configurations of 95_test_vectors.md, section 2 -/

/-- `W_T`, `E_T`, `P_T` (2.1). -/
def tablesT : Tables where
  wave := Vector.ofFn fun i => BitVec.ofInt 8 ((i.val % 256 : Nat) - 128)
  env := Vector.ofFn fun j => BitVec.ofNat 8
    (if j.val < 256 then j.val
     else if j.val < 512 then 255 - (j.val - 256) / 2
     else if j.val < 768 then 128
     else 127 - (j.val - 768))
  pitch := Vector.ofFn fun n => BitVec.ofNat 16 (64 * (n.val + 3))

/-- Configuration T: REF with the formula images. -/
def cfgT : Config := { Params.ref, tablesT with legal := by decide }

/-- The parameters of configuration M (2.2). -/
def paramsM : Params where
  fracBits := 8
  cycBase := 4
  cycLen := 4
  attStart := 0
  decStart := 4
  susIndex := 8
  relStart := 16
  relEnd := 24

/-- `W_S`, `E_S`, `P_S` (2.2). -/
def tablesM : Tables where
  wave := Vector.ofFn fun i => BitVec.ofInt 8
    (match i.val with | 3 => 55 | 5 => 100 | 7 => -100 | 8 => 77 | _ => 0)
  env := Vector.ofFn fun j => BitVec.ofNat 8
    (match j.val with
     | 0 => 64 | 1 => 128 | 2 => 192 | 3 => 255 | 4 => 240 | 5 => 224 | 6 => 208 | 7 => 192 | 8 => 180
     | 16 => 150 | 17 => 100 | 18 => 50 | 20 => 9 | 21 => 9 | 22 => 9 | 23 => 9 | _ => 0)
  pitch := Vector.ofFn fun n => BitVec.ofNat 16
    (match n.val with | 0 => 0 | 60 => 0x80 | 69 => 0x100 | 127 => 0xA40 | _ => 0x40)

def cfgM : Config := { paramsM, tablesM with legal := by decide }

/-- Configuration X: as M but `R1 = 18` (2.3). -/
def cfgX : Config := { paramsM, tablesM with relEnd := 18, legal := by decide }

/-- A one-entry cycle with no fractional bits: the edges of R8's ranges. -/
def cfgOne : Config := { Params.ref, tablesM with fracBits := 0, cycBase := 1151, cycLen := 1, legal := by decide }

/-! ## Small states -/

/-- A block with nothing returned yet. -/
def mk (c : Config) (v : Voice c.fracBits) (ins : List Input) : State := ⟨c, v, ins, []⟩

/-- A voice at envelope position `p` of segment `g`, note 69, velocity 100, as in section 3.5. -/
def at_ (g : Segment) (p : Nat) : Voice 8 := ⟨0x01200, 0x1200, g, BitVec.ofNat 10 p, 69, 100⟩

/-- The same with a phase inside configuration M's cycle. -/
def atM (g : Segment) (p : Nat) : Voice 8 := ⟨0x00180, 0x0080, g, BitVec.ofNat 10 p, 60, 127⟩

/-- The six registers as the test vectors write them: `phase`, `inc`, `seg`, `prog`, `note`, `vel`. -/
def regs {F : Nat} (v : Voice F) : List Nat :=
  [v.phase.toNat, v.inc.toNat, (segCode v.seg).toNat, v.prog.toNat, v.note.toNat, v.vel.toNat]

/-- The registers right after reset. -/
def zeros : List Nat := [0, 0, 0, 0, 0, 0]

/-- One step with the word presented: the registers and the response. -/
def run1 (c : Config) (v : Voice c.fracBits) (w : Word) : Option (List Nat × List Response) :=
  match step (presentCommand (mk c v []) w) with
  | .next t => some (regs t.voice, t.responses)
  | .fault _ => none
  | .refused _ => none

/-! ## Well-formedness: each check refuses an ill-formed term -/

theorem test_wf_refuses_rdreg_of_no_register :
    Instr.wf (.rdreg 6) = false ∧ Instr.wf (.rdreg 255) = false ∧ Instr.wf (.rdreg 5) = true ∧
    Instr.wf (.noteOn 255 127) = true ∧ Instr.wf (.lookup 128) = true ∧
    Instr.wf .noteOff = true ∧ Instr.wf .render = true ∧ Instr.wf .isFree = true := by decide

/-- One parameter off at a time, each constraint of R8 and R9. -/
theorem test_legal_refuses_each_broken_constraint :
    (Params.ref.Legal ∧
      ¬ Params.Legal { Params.ref with fracBits := 17 } ∧
      ¬ Params.Legal { Params.ref with cycBase := 1152, cycLen := 0 } ∧
      ¬ Params.Legal { Params.ref with cycLen := 0 } ∧
      ¬ Params.Legal { Params.ref with cycLen := 1153 } ∧
      ¬ Params.Legal { Params.ref with cycBase := 1 }) ∧
    ¬ Params.Legal { Params.ref with attStart := 256 } ∧
    ¬ Params.Legal { Params.ref with decStart := 512 } ∧
    ¬ Params.Legal { Params.ref with susIndex := 1024 } ∧
    ¬ Params.Legal { Params.ref with relStart := 1024 } ∧
    ¬ Params.Legal { Params.ref with relEnd := 1025 } :=
  ⟨by decide, by decide, by decide, by decide, by decide, by decide⟩

/-! ## Decoding: words written out bit by bit from R73's formats and R75's opcodes -/

/-- Format KV: op 00000001, note 60 = 00111100, 0, vel 100 = 1100100, 00000000 (V-ENC-1). -/
theorem test_decode_noteOn : decode 0b00000001_00111100_0_1100100_00000000#32 = .instr (.noteOn 60 100) := by decide
/-- Format N, op 00000010. -/
theorem test_decode_noteOff : decode 0b00000010_000000000000000000000000#32 = .instr .noteOff := by decide
/-- Format N, op 00000011. -/
theorem test_decode_render : decode 0b00000011_000000000000000000000000#32 = .instr .render := by decide
/-- Format N, op 00000100. -/
theorem test_decode_isFree : decode 0b00000100_000000000000000000000000#32 = .instr .isFree := by decide
/-- Format K: op 00000101, note 69 = 01000101, then zeros (V-ENC-6). -/
theorem test_decode_lookup : decode 0b00000101_01000101_0000000000000000#32 = .instr (.lookup 69) := by decide
/-- Format R: op 00000110, register 5 = 00000101, then zeros (V-ENC-7). -/
theorem test_decode_rdreg : decode 0b00000110_00000101_0000000000000000#32 = .instr (.rdreg 5) := by decide

/-- V-ENC-1 to V-ENC-7, from the mnemonic to the word. -/
theorem test_encode_vectors :
    encode (.noteOn 60 100) = 0x013C6400#32 ∧ encode (.noteOn 69 127) = 0x01457F00#32 ∧
    encode (.noteOn 0 0) = 0x01000000#32 ∧ encode (.noteOn 255 127) = 0x01FF7F00#32 ∧
    encode .noteOff = 0x02000000#32 ∧ encode .render = 0x03000000#32 ∧ encode .isFree = 0x04000000#32 ∧
    encode (.lookup 69) = 0x05450000#32 ∧ encode (.lookup 128) = 0x05800000#32 ∧
    encode (.rdreg 1) = 0x06010000#32 ∧ encode (.rdreg 5) = 0x06050000#32 := by decide

/-- V-ENC-8 to V-ENC-13. -/
theorem test_decode_illegal_vectors :
    decode 0x00000000#32 = .illegal .opcode ∧ decode 0x07000000#32 = .illegal .opcode ∧
    decode 0xFF000000#32 = .illegal .opcode ∧ decode 0x80000000#32 = .illegal .opcode ∧
    decode 0x013C6401#32 = .illegal .mustBeZero ∧ decode 0x013C64FF#32 = .illegal .mustBeZero ∧
    decode 0x013CE400#32 = .illegal .mustBeZero ∧ decode 0x02000001#32 = .illegal .mustBeZero ∧
    decode 0x03010000#32 = .illegal .mustBeZero ∧ decode 0x04800000#32 = .illegal .mustBeZero ∧
    decode 0x05450001#32 = .illegal .mustBeZero ∧ decode 0x05458000#32 = .illegal .mustBeZero ∧
    decode 0x06060000#32 = .illegal .register ∧ decode 0x06FF0000#32 = .illegal .register ∧
    decode 0x06000100#32 = .illegal .mustBeZero ∧ decode 0x01C8E400#32 = .illegal .mustBeZero := by decide

/-- The opcode table's rows, numbered as it numbers them. -/
theorem test_decodeTableWord :
    decodeTableWord 32 0x01000000 = some (.noteOn 0 0) ∧ decodeTableWord 32 0x03000000 = some .render ∧
    decodeTableWord 32 0x06000000 = some (.rdreg 0) ∧ decodeTableWord 32 0x06060000 = none := by decide

/-! ## One step of each command (95_test_vectors.md, sections 3.2, 3.5, 3.6) -/

/-- V-VOI-15: retrigger in Release, phase kept. -/
theorem test_noteOn_retrigger_keeps_phase :
    run1 cfgT (at_ .release 800) 0x013C3200#32 = some ([0x01200, 0x0FC0, 1, 0, 60, 50], [⟨.ok, 0⟩]) := by
  decide
/-- V-VOI-14: the note keeps sounding. -/
theorem test_noteOn_out_of_range :
    run1 cfgT (at_ .sustain 512) 0x01800500#32 = some (regs (at_ .sustain 512), [⟨.outOfRangeNote, 0⟩]) := by decide
/-- V-VOI-6. -/
theorem test_noteOff_starts_release :
    run1 cfgT (at_ .sustain 512) 0x02000000#32 = some (regs (at_ .release 768), [⟨.ok, 0⟩]) := by decide
/-- V-VOI-7. -/
theorem test_noteOff_in_release :
    run1 cfgT (at_ .release 768) 0x02000000#32 = some (regs (at_ .release 768), [⟨.invalidState, 0⟩]) := by decide
/-- V-VOI-3: a negative product that is floored. -/
theorem test_render_floors :
    run1 cfgT ⟨0x00FC0, 0x0FC0, .attack, 1, 60, 100⟩ 0x03000000#32 =
      some ([0x01F80, 0x0FC0, 1, 2, 60, 100], [⟨.ok, 0xFFFFFFA7#32⟩]) := by decide +kernel
/-- P4 line 7: the release ends by exhaustion with a sample that is not 0, and the registers are cleared. -/
theorem test_render_ends_release :
    run1 cfgX ⟨0x00300, 0x0100, .release, 17, 69, 64⟩ 0x03000000#32 =
      some (zeros, [⟨.ok, 0xFFFFEC78#32⟩]) := by decide +kernel
/-- V-VOI-10. -/
theorem test_isFree_after_reset : run1 cfgT Voice.reset 0x04000000#32 = some (zeros, [⟨.ok, 1⟩]) := by
  decide
/-- P4 line 5: not free in Release. -/
theorem test_isFree_in_release :
    run1 cfgX (atM .release 16) 0x04000000#32 = some (regs (atM .release 16), [⟨.ok, 0⟩]) := by decide
/-- V-PIT-8. -/
theorem test_lookup_in_sustain :
    run1 cfgT (at_ .sustain 512) 0x05450000#32 = some (regs (at_ .sustain 512), [⟨.ok, 0x00001200#32⟩]) := by decide
/-- V-PIT-5. -/
theorem test_lookup_out_of_range :
    run1 cfgT Voice.reset 0x05800000#32 = some (zeros, [⟨.outOfRangeNote, 0⟩]) := by decide
/-- V-REG-2: the whole phase register. -/
theorem test_rdreg_phase :
    run1 cfgT ⟨0x46E00, 0x1200, .decay, 511, 69, 100⟩ 0x06000000#32 =
      some ([0x46E00, 0x1200, 2, 511, 69, 100], [⟨.ok, 0x00046E00#32⟩]) := by decide
/-- V-REG-4, and the meaning's own check (R165). -/
theorem test_rdreg_no_register :
    run1 cfgT Voice.reset 0x06060000#32 = some (zeros, [⟨.illegalCommand, 0⟩]) ∧
    readRegister (Voice.reset : Voice 8) 6 = none := by decide

/-- The widths of the table of registers (10_state.md section 5): 19 bits of phase in REF hold 0x7FFFF and no more. -/
theorem test_phase_width :
    (0x7FFFF : BitVec (cfgT.fracBits + 11)).toNat = 0x7FFFF ∧ (0x80000 : BitVec (cfgT.fracBits + 11)).toNat = 0 ∧
    (0x7FF : BitVec (cfgOne.fracBits + 11)).toNat = 0x7FF ∧ (0x800 : BitVec (cfgOne.fracBits + 11)).toNat = 0 := by decide

/-- From reset each command's word, presented first, is performed: a next state each time. -/
theorem test_first_command_after_reset :
    ([0x013C6400, 0x02000000, 0x03000000, 0x04000000, 0x05450000, 0x06000000].all fun w =>
      match step (State.reset.withFetchWord 32 w) with
      | .next _ => true
      | .fault _ => false
      | .refused _ => false) = true := by decide

/-- V-RST-1: reset in the middle of a note. -/
theorem test_reset_input :
    ∃ t, step (mk cfgT ⟨0x46E00, 0x1200, .decay, 511, 69, 100⟩ [.reset]) = .next t ∧ regs t.voice = zeros :=
  ⟨_, step_eq rfl, by decide⟩

/-! ## The micro-operations and the output (95_test_vectors.md, sections 3.3, 3.4, 3.5) -/

/-- The sample and the new phase. -/
def osc (c : Config) (phase : BitVec (c.fracBits + 11)) (inc : BitVec 16) : Int × BitVec (c.fracBits + 11) :=
  let r := oscRender c ⟨phase, inc, .sustain, 0, 0, 0⟩
  (r.1, r.2.phase)

theorem waveEntry_T (i : Fin 1152) :
    waveEntry cfgT i = (BitVec.ofInt 8 ((i.val % 256 : Nat) - 128)).toInt := by simp [waveEntry, cfgT, tablesT]

theorem envEntry_T (j : Fin 1024) :
    envEntry cfgT j = (BitVec.ofNat 8
      (if j.val < 256 then j.val
       else if j.val < 512 then 255 - (j.val - 256) / 2
       else if j.val < 768 then 128
       else 127 - (j.val - 768))).toNat := by simp only [envEntry, cfgT, tablesT, Vector.getElem_ofFn]

/-- V-OSC-3, 4, 5, 6, 8 and 9. -/
theorem test_osc_vectors_T :
    osc cfgT 0x0FF80 0x1200 = (-1, 0x11180) ∧ osc cfgT 0x0FFFF 0x0001 = (-128, 0x10000) ∧
    osc cfgT 0x47FC0 0x0080 = (-97, 0x00040) ∧ osc cfgT 0x47FFF 0x0001 = (-128, 0x00000) ∧
    osc cfgT 0x47F00 0xFFFF = (-1, 0x0FEFF) ∧ osc cfgT 0x12345 0x0000 = (-93, 0x12345) := by
  simp only [osc, oscRender, waveEntry_T]; decide

/-- V-OSC-10 to V-OSC-14. -/
theorem test_osc_vectors_M :
    osc cfgM 0x00080 0x0080 = (50, 0x00100) ∧ osc cfgM 0x00180 0x0080 = (50, 0x00200) ∧
    osc cfgM 0x003C0 0x0080 = (-25, 0x00040) ∧ osc cfgM 0x003FF 0x0A40 = (-1, 0x0023F) ∧
    osc cfgM 0x00001 0x0A40 = (0, 0x00241) := by decide +kernel

/-- The amplitude and the registers after a tick. -/
def tick (c : Config) (v : Voice c.fracBits) : Nat × List Nat := ((envTick c v).1, regs (envTick c v).2)

/-- V-ENV-1 to V-ENV-10. -/
theorem test_env_vectors_T :
    tick cfgT (at_ .attack 0) = (0, regs (at_ .attack 1)) ∧ tick cfgT (at_ .attack 254) = (254, regs (at_ .attack 255)) ∧
    tick cfgT (at_ .attack 255) = (255, regs (at_ .decay 256)) ∧ tick cfgT (at_ .decay 256) = (255, regs (at_ .decay 257)) ∧
    tick cfgT (at_ .decay 511) = (128, regs (at_ .sustain 512)) ∧
    tick cfgT (at_ .sustain 512) = (128, regs (at_ .sustain 512)) ∧
    tick cfgT (at_ .release 768) = (127, regs (at_ .release 769)) ∧
    tick cfgT (at_ .release 894) = (1, regs (at_ .release 895)) ∧
    tick cfgT (at_ .release 895) = (0, regs (at_ .idle 895)) ∧ tick cfgT Voice.reset = (0, zeros) := by
  simp only [tick, envTick, envEntry_T]; decide

/-- V-ENV-11 and V-ENV-12. -/
theorem test_env_vectors_X :
    tick cfgX (at_ .release 16) = (150, regs (at_ .release 17)) ∧ tick cfgX (at_ .release 17) = (100, regs (at_ .idle 17)) := by
  decide +kernel

/-- V-OUT-1 to V-OUT-8. -/
theorem test_output_vectors :
    sampleData (outputSample (-128) 255 127) = 0xFFFF817F#32 ∧ sampleData (outputSample 127 255 127) = 0x00007D83#32 ∧
    sampleData (outputSample (-1) 1 1) = 0xFFFFFFFF#32 ∧ sampleData (outputSample 1 1 1) = 0#32 ∧
    sampleData (outputSample (-50) 224 127) = 0xFFFFD497#32 ∧
    sampleData (outputSample 50 224 127) = 0x00002B68#32 ∧
    sampleData (outputSample 100 0 127) = 0#32 ∧ sampleData (outputSample 100 255 0) = 0#32 := by decide

/-- The 36-bit response `status ++ data` (R72). -/
theorem test_response_word : responseWord ⟨.illegalCommand, 0⟩ = 0x400000000#36 := by decide

/-! ## Witnesses: for each statement with hypotheses, a state and operands that meet them -/

theorem witness_IllegalWordAnswersIllegalCommand :
    (mk cfgT Voice.reset [.command 0x07000000#32]).inputs = .command 0x07000000#32 :: [] ∧
    IllegalWord 0x00000000#32 ∧ IllegalWord 0x07000000#32 ∧ IllegalWord 0xFF000000#32 ∧
    IllegalWord 0x01000001#32 ∧ IllegalWord 0x01008000#32 ∧ IllegalWord 0x02000001#32 ∧ IllegalWord 0x03800000#32 ∧
    IllegalWord 0x04000001#32 ∧ IllegalWord 0x05008000#32 ∧ IllegalWord 0x06000001#32 ∧ IllegalWord 0x06060000#32 ∧
    ¬ IllegalWord 0x06050000#32 ∧ ¬ IllegalWord 0x01FF7F00#32 ∧ ¬ IllegalWord 0x05FF0000#32 :=
  ⟨rfl, by decide, by decide, by decide, by decide, by decide, by decide, by decide, by decide, by decide, by decide,
    by decide, by decide, by decide, by decide⟩

theorem witness_EveryWordHasOneMeaningOrIsIllegal :
    ¬ IllegalWord 0x06050000#32 ∧ IllegalWord 0x06060000#32 ∧
    Instr.wf (.rdreg 5) = true ∧ encode (.rdreg 5) = 0x06050000#32 := by decide

theorem witness_DecodeOfEncodeIsTheInstruction :
    Instr.wf (.noteOn 255 127) = true ∧ Instr.wf .noteOff = true ∧ Instr.wf .render = true ∧
    Instr.wf .isFree = true ∧ Instr.wf (.lookup 255) = true ∧ Instr.wf (.rdreg 5) = true := by decide

theorem witness_EncodeOfDecodeIsTheWord :
    decode 0x01FF7F00#32 = .instr (.noteOn 255 127) ∧ decode 0x06050000#32 = .instr (.rdreg 5) := by decide

theorem witness_StepPerformsTheDecodedCommand :
    (mk cfgT Voice.reset [.command 0x013C6400#32, .reset]).inputs = .command 0x013C6400#32 :: [.reset] ∧
    decode 0x013C6400#32 = .instr (.noteOn 60 100) := ⟨rfl, by decide⟩

theorem witness_EachInputIsTakenAndEachCommandAnsweredOnce :
    (mk cfgT Voice.reset [.command 0x03000000#32, .reset]).inputs = .command 0x03000000#32 :: [.reset] ∧
    (mk cfgT Voice.reset [.reset]).inputs = .reset :: [] := ⟨rfl, rfl⟩

theorem witness_NothingPresentedAndResetAnswerNothing :
    (mk cfgT (at_ .attack 0) []).inputs = [] ∧ (mk cfgT (at_ .attack 0) [.reset]).inputs = .reset :: [] := ⟨rfl, rfl⟩

theorem witness_CommandsTakeEffectInTheOrderPresented :
    (∃ t, step ((mk cfgT Voice.reset []).feed [.command 0x013C6400#32]) = .next t) ∧
    ∃ u, (mk cfgT Voice.reset []).after [.command 0x013C6400#32, .command 0x03000000#32] = .next u :=
  ⟨⟨_, step_eq rfl⟩, ⟨_, after_eq _ _⟩⟩

theorem witness_ResetInputGivesTheResetState :
    (mk cfgT ⟨0x46E00, 0x1200, .decay, 511, 69, 100⟩ [.reset, .command 0#32]).inputs = .reset :: [.command 0#32] := rfl

theorem witness_SilentAfterResetUntilNoteOn :
    (mk cfgT Voice.reset []).voice = Voice.reset ∧
    (∀ n v, Instr.render = .noteOn n v → 127 < n.toNat) ∧ (∀ n v, Instr.isFree = .noteOn n v → 127 < n.toNat) ∧
    ∀ n v, Instr.noteOn 128 5 = .noteOn n v → 127 < n.toNat := by
  refine ⟨rfl, ?_, ?_, ?_⟩
  · intro n v h; cases h
  · intro n v h; cases h
  · intro n v h; cases h; decide

theorem witness_ConfigurationNeverChanges :
    ∃ t, (mk cfgT Voice.reset []).after [.command 0x013C6400#32, .reset, .command 0#32] = .next t := ⟨_, after_eq _ _⟩

/-- One step of each command that fails: OutOfRangeNote, InvalidState and IllegalCommand. -/
theorem witness_ErrorChangesNothingAndReadsNoTable :
    (∃ t, step (mk cfgT (at_ .attack 3) [.command 0x05800000#32]) = .next t ∧
      t.responses = [] ++ [⟨.outOfRangeNote, 0⟩]) ∧
    (∃ t, step (mk cfgT (at_ .release 800) [.command 0x02000000#32]) = .next t ∧
      t.responses = [] ++ [⟨.invalidState, 0⟩]) ∧
    (∃ t, step (mk cfgT (at_ .attack 3) [.command 0x06060000#32]) = .next t ∧
      t.responses = [] ++ [⟨.illegalCommand, 0⟩]) ∧
    Status.outOfRangeNote ≠ .ok ∧ Status.invalidState ≠ .ok ∧ Status.illegalCommand ≠ .ok :=
  ⟨⟨_, step_eq rfl, by decide⟩, ⟨_, step_eq rfl, by decide⟩, ⟨_, step_eq rfl, by decide⟩, by decide⟩

/-- Other parameters that are legal beside the `F` of configuration T. -/
theorem witness_ErrorUnderOtherParameters :
    Params.Legal { paramsM with fracBits := cfgT.fracBits } ∧ paramsM.cycLen ≠ cfgT.cycLen := by decide

/-- One step with each status that is returned; the three errors stand in the witness above. -/
theorem witness_EachStatusHasItsCauseAndNoOther :
    (∃ t, step (mk cfgT Voice.reset [.command 0x04000000#32]) = .next t ∧ t.responses = [] ++ [⟨.ok, 1⟩]) ∧
    (∃ t, step (mk cfgT Voice.reset [.command 0x01800500#32]) = .next t ∧
      t.responses = [] ++ [⟨.outOfRangeNote, 0⟩]) ∧
    decode 0x01800500#32 = .instr (.noteOn 128 5) ∧ decode 0x05800000#32 = .instr (.lookup 128) ∧
    decode 0x02000000#32 = .instr .noteOff := ⟨⟨_, step_eq rfl, by decide⟩, ⟨_, step_eq rfl, by decide⟩, by decide⟩

theorem witness_ResponseIsStatusThenData :
    (∃ t, step (mk cfgT Voice.reset [.command 0x04000000#32]) = .next t) ∧
    ∃ t, step (mk cfgT Voice.reset [.command 0#32]) = .next t := ⟨⟨_, step_eq rfl⟩, ⟨_, step_eq rfl⟩⟩

theorem witness_IllegalCommandComesBeforeOutOfRangeNote :
    (mk cfgT Voice.reset [.command 0x01C8E400#32]).inputs = .command 0x01C8E400#32 :: [] ∧
    (opOf 0x01C8E400#32 = 1 ∧ 127 < operandOf 0x01C8E400#32 ∧ ZeroBitSet 0x01C8E400#32) ∧
    (opOf 0x05800000#32 = 5 ∧ 127 < operandOf 0x05800000#32 ∧ ¬ ZeroBitSet 0x05800000#32) ∧
    (opOf 0x01800000#32 = 1 ∧ ¬ ZeroBitSet 0x01800000#32) ∧ (opOf 0x05FF0001#32 = 5 ∧ ZeroBitSet 0x05FF0001#32) :=
  ⟨rfl, by decide⟩

theorem witness_RenderAndIsFreeNeverFail :
    (mk cfgT (at_ .release 800) [.command 0x03000000#32]).inputs = .command 0x03000000#32 :: [] ∧
    (mk cfgT (at_ .release 800) [.command 0x04000000#32]).inputs = .command 0x04000000#32 :: [] := ⟨rfl, rfl⟩

theorem witness_LookupAnswersTheEntryOrOutOfRange :
    (0 : BitVec 8).toNat < 128 ∧ (127 : BitVec 8).toNat < 128 ∧ 127 < (128 : BitVec 8).toNat ∧
    127 < (255 : BitVec 8).toNat := by decide

theorem witness_LookupIsPure : (mk cfgX (at_ .attack 3) []).cfg.pitch = (mk cfgM Voice.reset []).cfg.pitch := rfl

/-- The clauses: inside the modulus; not the last entry and the last entry; no fractional bits; a one-entry cycle. -/
theorem witness_WaveIndicesWrapInsideTheCycle :
    (0x47FFF : BitVec (cfgT.fracBits + 11)).toNat < cfgT.cycLen * 2 ^ cfgT.fracBits ∧
    oscIdx cfgT 0x00000 + 1 < cfgT.cycLen ∧ oscIdx cfgT 0x47F00 + 1 = cfgT.cycLen ∧
    cfgOne.fracBits = 0 ∧ cfgOne.cycLen = 1 := by decide

/-- The clauses: `s0 < s1`, `s1 < s0` and `frac = 0`, at the ends of the ranges. -/
theorem witness_InterpolationFloorsBetweenItsEntries :
    (-128 : Int) ≤ -128 ∧ (127 : Int) ≤ 127 ∧ (-128 : Int) < 127 ∧ 255 < 2 ^ cfgT.fracBits ∧
    0 < 2 ^ cfgT.fracBits ∧ 0 < 2 ^ cfgOne.fracBits := by decide

theorem witness_ZeroIncrementFreezesThePhase :
    let v : Voice 8 := ⟨0x12345, 0, .sustain, 512, 0, 127⟩
    v.phase.toNat < cfgT.cycLen * 2 ^ cfgT.fracBits ∧ v.inc = 0 := by decide

theorem witness_PhaseLawIsExact : (at_ .sustain 512).phase.toNat < cfgT.cycLen * 2 ^ cfgT.fracBits := by decide

/-- V-OSC-15: increment 4608, period 64. -/
theorem witness_PhaseHasTheExactPeriod :
    (at_ .sustain 512).phase.toNat < cfgT.cycLen * 2 ^ cfgT.fracBits ∧ 0 < (at_ .sustain 512).inc.toNat ∧
    cfgT.cycLen * 2 ^ cfgT.fracBits / Nat.gcd (at_ .sustain 512).inc.toNat (cfgT.cycLen * 2 ^ cfgT.fracBits) = 64 := by
  decide

/-- The clauses: in each state, going on and ending its segment; a release that ends on a zero, and one by
exhaustion. -/
theorem witness_EnvTickInEachState :
    (Voice.reset : Voice 8).seg = .idle ∧
    ((at_ .attack 255).seg = .attack ∧ cfgT.decStart ≤ (at_ .attack 255).prog.toNat + 1) ∧
    (at_ .attack 254).prog.toNat + 1 < cfgT.decStart ∧
    ((at_ .decay 511).seg = .decay ∧ cfgT.susIndex ≤ (at_ .decay 511).prog.toNat + 1) ∧
    (at_ .decay 510).prog.toNat + 1 < cfgT.susIndex ∧ (at_ .sustain 512).seg = .sustain ∧
    ((atM .release 19).seg = .release ∧ (cfgM.env[19]).toNat = 0) ∧
    cfgX.relEnd ≤ (atM .release 17).prog.toNat + 1 ∧
    ((cfgM.env[18]).toNat ≠ 0 ∧ (atM .release 18).prog.toNat + 1 < cfgM.relEnd) := by decide +kernel

/-- States with the invariants for every row of the table, in configurations M and X. -/
theorem witness_SegmentsChangeOnlyByTheTransitionTable :
    (mk cfgM Voice.reset []).Inv ∧ (mk cfgM (atM .attack 2) []).Inv ∧ (mk cfgM (atM .attack 3) []).Inv ∧
    (mk cfgM (atM .decay 6) []).Inv ∧ (mk cfgM (atM .decay 7) []).Inv ∧ (mk cfgM (atM .sustain 8) []).Inv ∧
    (mk cfgM (atM .release 18) []).Inv ∧ (mk cfgM (atM .release 19) []).Inv ∧ (mk cfgX (atM .release 17) []).Inv ∧
    ((atM .attack 2).prog.toNat + 1 < cfgM.decStart ∧ cfgM.decStart ≤ (atM .attack 3).prog.toNat + 1) ∧
    ((atM .decay 6).prog.toNat + 1 < cfgM.susIndex ∧ cfgM.susIndex ≤ (atM .decay 7).prog.toNat + 1) ∧
    (cfgM.env[18] ≠ 0 ∧ (atM .release 18).prog.toNat + 1 < cfgM.relEnd) ∧ cfgM.env[19] = 0 ∧
    cfgX.relEnd ≤ (atM .release 17).prog.toNat + 1 ∧ IllegalWord 0x02000001#32 :=
  ⟨by decide, by decide, by decide, by decide, by decide, by decide, by decide, by decide, by decide, by decide +kernel⟩

/-- Each command of the table completes on such a state. -/
theorem witness_TransitionTableCommandsComplete (s : State) (i : Instr) : ∃ t, exec i s = .next t := ⟨_, exec_eq i s⟩

theorem witness_FirstRenderReadsTheStartOfTheSegment :
    (127 : BitVec 8).toNat < 128 ∧ (at_ .attack 0).seg = .attack ∧ (at_ .decay 256).seg = .decay ∧
    (at_ .sustain 512).seg = .sustain ∧ (at_ .release 768).seg = .release := by decide

theorem witness_SustainHoldsUnderRender :
    (mk cfgM (atM .sustain 8) []).Inv ∧ (mk cfgM (atM .sustain 8) []).voice.seg = .sustain := by decide

/-- The last attack RENDER, the first and the last decay RENDER, and the first in Sustain. -/
theorem witness_AttackAndDecayLastTheirSegments :
    (127 : BitVec 8).toNat < 128 ∧ cfgM.attStart + 3 < cfgM.decStart ∧
    (cfgM.decStart ≤ cfgM.attStart + 4 ∧ cfgM.attStart + 7 < cfgM.susIndex) ∧
    cfgM.susIndex ≤ cfgM.attStart + 8 := by decide

/-- In configuration M the release goes on for 3 RENDERs and ends with the 4th, which reads the zero at 19; in X it
ends with the 2nd by exhaustion. -/
theorem witness_ReleaseEndsOnZeroOrExhaustion :
    (atM .attack 3).seg = .attack ∧ (atM .decay 7).seg = .decay ∧ (atM .sustain 8).seg = .sustain ∧
    (cfgM.relStart + 3 < cfgM.relEnd ∧
      ∀ j, j < 3 → ∀ h : cfgM.relStart + j < 1024, cfgM.env[cfgM.relStart + j] ≠ 0) ∧
    cfgM.env[19] = 0 ∧ ¬ cfgX.relStart + 2 < cfgX.relEnd := by decide +kernel

theorem witness_NoteOnStartsTheNoteOrIsOutOfRange :
    (0 : BitVec 8).toNat < 128 ∧ (127 : BitVec 8).toNat < 128 ∧ 127 < (128 : BitVec 8).toNat := by decide

theorem witness_RetriggerKeepsOnlyThePhase :
    (60 : BitVec 8).toNat < 128 ∧
    (⟨0x01200, 0, .idle, 0, 0, 0⟩ : Voice 8).phase = (mk cfgT (at_ .release 800) []).voice.phase ∧
    (mk cfgT Voice.reset []).Inv ∧ (mk cfgT Voice.reset []).voice.seg = .idle :=
  ⟨by decide, rfl, by decide, rfl⟩

/-- NOTE_ON, and the RENDER that ends the release of configuration M, leave Release. -/
theorem witness_OnlyNoteOnRetriggersARelease :
    (60 : BitVec 8).toNat < 128 ∧ (at_ .release 800).seg = .release ∧
    (∃ t, exec (.noteOn 60 50) (mk cfgT (at_ .release 800) []) = .next t ∧ t.voice.seg ≠ .release) ∧
    ∃ t, exec .render (mk cfgM (atM .release 19) []) = .next t ∧ t.voice.seg ≠ .release :=
  ⟨by decide, rfl, ⟨_, exec_eq _ _, by decide⟩, ⟨_, exec_eq _ _, by decide +kernel⟩⟩

theorem witness_VelocityZeroSoundsAtZeroLevel : (69 : BitVec 8).toNat < 128 := by decide

theorem witness_NoteOffStartsTheRelease :
    (at_ .attack 0).seg = .attack ∧ (at_ .decay 256).seg = .decay ∧ (at_ .sustain 512).seg = .sustain ∧
    (Voice.reset : Voice 8).seg = .idle ∧ (at_ .release 800).seg = .release := by decide

theorem witness_NoteOffTwiceIsNoteOffOnce : (Voice.reset : Voice 8).seg = .idle ∧ (at_ .release 800).seg = .release := by decide

theorem witness_RenderInIdleIsSilence : (mk cfgT Voice.reset []).voice.seg = .idle := rfl

/-- Idle; sounding with the tick going on; sounding with the tick ending the release. -/
theorem witness_RenderMultipliesSampleAmplitudeVelocity :
    (Voice.reset : Voice 8).seg = .idle ∧ (atM .release 18).seg ≠ .idle ∧ (envTick cfgM (atM .release 18)).2.seg ≠ .idle ∧
    (envTick cfgM (atM .release 19)).2.seg = .idle := by decide +kernel

theorem witness_OutputIsFlooredInRangeAndSignExtended :
    (-128 : Int) ≤ -128 ∧ (-128 : Int) ≤ 127 ∧ (127 : Int) ≤ 127 ∧ 255 ≤ 255 := by decide

/-- A release that ends on the zero at 19 (M), and one by exhaustion at 17 (X). -/
theorem witness_LastSampleThenSilence :
    (atM .release 19).seg = .release ∧ cfgM.env[19] = 0 ∧ (atM .release 17).seg = .release ∧
    cfgX.relEnd ≤ (atM .release 17).prog.toNat + 1 := by decide +kernel

theorem witness_NoteRoundTripEndsInTheResetState :
    (mk cfgT Voice.reset []).voice = Voice.reset ∧ cfgT.relEnd - cfgT.relStart ≤ 256 := ⟨rfl, by decide⟩

theorem witness_IsFreeAnswersWhetherIdle : (Voice.reset : Voice 8).seg = .idle ∧ (at_ .release 800).seg ≠ .idle := by decide

/-- Every register number, every code of `seg`, and the first number of no register. -/
theorem witness_RdregReadsTheNumberedRegister :
    (0 : BitVec 8).toNat ≤ 5 ∧ (5 : BitVec 8).toNat ≤ 5 ∧ (0 : BitVec 8).toNat = 0 ∧ (1 : BitVec 8).toNat = 1 ∧
    (2 : BitVec 8).toNat = 2 ∧ (3 : BitVec 8).toNat = 3 ∧ (4 : BitVec 8).toNat = 4 ∧ (5 : BitVec 8).toNat = 5 ∧
    (Voice.reset : Voice 8).seg = .idle ∧ (at_ .attack 0).seg = .attack ∧ (at_ .decay 256).seg = .decay ∧
    (at_ .sustain 512).seg = .sustain ∧ (at_ .release 800).seg = .release ∧ 5 < (6 : BitVec 8).toNat := by decide

/-- The clause on Idle: a state with the invariants. -/
theorem witness_RdregInIdleReadsZero :
    (mk cfgT Voice.reset []).Inv ∧ (mk cfgT Voice.reset []).voice.seg = .idle := by decide

/-- The same registers beside different tables; a NOTE_ON that changes them. -/
theorem witness_RdregIsPureAndNoCommandWritesByNumber :
    regs (mk cfgM (at_ .attack 0) []).voice = regs (mk cfgT (at_ .attack 0) []).voice ∧
    (effect cfgT Voice.reset (.noteOn 60 50)).1 ≠ Voice.reset := ⟨rfl, by decide⟩

theorem witness_StepKeepsTheVoiceInvariants :
    (mk cfgM (atM .release 19) [.command 0x03000000#32]).Inv ∧
    ∃ t, step (mk cfgM (atM .release 19) [.command 0x03000000#32]) = .next t := ⟨by decide, _, step_eq rfl⟩

theorem witness_FreeIsExactlyTheResetState : (mk cfgM Voice.reset []).Inv ∧ (mk cfgM (atM .release 18) []).Inv := by
  decide

theorem witness_PhaseFitsItsRegister : (mk cfgM (atM .attack 2) []).Inv := by decide

/-- A NOTE_ON that changes `inc`, `seg`, `note` and `vel`, and a RENDER that changes `phase` and `prog`. -/
theorem witness_EachRegisterHasItsWriters :
    (∃ t, exec (.noteOn 60 50) (mk cfgT Voice.reset []) = .next t ∧ t.voice.inc ≠ 0 ∧ t.voice.seg ≠ .idle ∧
      t.voice.note ≠ 0 ∧ t.voice.vel ≠ 0) ∧
    ∃ t, exec .render (mk cfgM (atM .attack 2) []) = .next t ∧ t.voice.phase.toNat ≠ 0x180 ∧
      t.voice.prog ≠ (atM .attack 2).prog :=
  ⟨⟨_, exec_eq _ _, by decide⟩, ⟨_, exec_eq _ _, by decide⟩⟩

/-- The tables of configuration M with the entries no rule reads replaced (`W[8]` and `E[30]`), a sounding RENDER in Release and one
in Sustain, NOTE_ON and LOOKUP. -/
def tablesM' : Tables :=
  { tablesM with
    wave := Vector.ofFn fun i => if i.val = 8 then 1 else tablesM.wave[i.val]
    env := Vector.ofFn fun j => if j.val = 30 then 1 else tablesM.env[j.val] }

theorem witness_CommandsReadOnlyTheirTableEntries :
    (atM .release 18).seg ≠ .idle ∧ (atM .sustain 8).seg = .sustain ∧
    tablesM'.wave[(cycleIndex cfgM (oscIdx cfgM (atM .release 18).phase)).val] =
      cfgM.wave[(cycleIndex cfgM (oscIdx cfgM (atM .release 18).phase)).val] ∧
    tablesM'.wave[(cycleIndex cfgM (oscIdx cfgM (atM .release 18).phase + 1)).val] =
      cfgM.wave[(cycleIndex cfgM (oscIdx cfgM (atM .release 18).phase + 1)).val] ∧
    tablesM'.env[18] = cfgM.env[18] ∧ tablesM'.env[(sustainIndex cfgM).val] = cfgM.env[(sustainIndex cfgM).val] ∧
    tablesM'.pitch[60] = cfgM.pitch[60] := by
  refine ⟨by decide, rfl, ?_, ?_, ?_, ?_, rfl⟩ <;>
    simp [tablesM', Vector.getElem_ofFn, cycleIndex, oscIdx, sustainIndex, atM, cfgM, paramsM]

theorem witness_OtherTablesDiffer : tablesM'.wave[8] ≠ cfgM.wave[8] ∧ tablesM'.env[30] ≠ cfgM.env[30] := by
  simp [tablesM', cfgM, tablesM, Vector.getElem_ofFn]

theorem witness_NoteRegisterIsReadOnlyByRdreg :
    Instr.render ≠ .rdreg 4 ∧ Instr.rdreg 5 ≠ .rdreg 4 ∧ ∃ t, exec .render (mk cfgM (atM .attack 2) []) = .next t :=
  ⟨by decide, by decide, _, exec_eq _ _⟩

theorem witness_QueriesDoNotDisturbWhatFollows :
    (Instr.isFree = .isFree) ∧ (∃ n, Instr.lookup 128 = .lookup n) ∧ ∃ r, Instr.rdreg 6 = .rdreg r :=
  ⟨rfl, ⟨_, rfl⟩, ⟨_, rfl⟩⟩

theorem witness_TableImagesAreReadLittleEndian :
    ∃ c, configOfImages Params.ref (List.replicate 1152 0x80) (List.replicate 1024 0xFF)
      (List.replicate 256 0x12) = some c :=
  ⟨_, dif_pos ⟨by decide, List.length_replicate, List.length_replicate, List.length_replicate⟩⟩

end Sys2Proof.Tests
end

section
/-! PROOFS. Which parameters and table images give a configuration (R9). -/

namespace Sys2Proof.Machine

/-- The images are accepted exactly where the guard of `configOfImages` holds: there is no other way to be refused. -/
theorem exists_configOfImages_eq_some_iff (p : Params) (w e pt : List Byte) :
    (∃ c, configOfImages p w e pt = some c) ↔
      p.Legal ∧ w.length = 1152 ∧ e.length = 1024 ∧ pt.length = 256 := by
  unfold configOfImages
  split
  case isTrue h => exact iff_of_true ⟨_, rfl⟩ h
  case isFalse h => exact iff_of_false (fun ⟨_, hc⟩ => Option.some_ne_none _ hc.symm) h

/-- Settles O59: the guard of `configOfImages`, with the groups of `Params.Legal` written as one conjunction. -/
theorem illegalConfigurationIsRefused : Obligations.IllegalConfigurationIsRefused := by
  intro p w e pt
  rw [exists_configOfImages_eq_some_iff]
  simp only [Params.Legal, and_assoc]

end Sys2Proof.Machine
end

section
/-! PROOFS. The configuration along runs (R23). -/

namespace Sys2Proof.Machine

/-- Settles O14: by `after_eq` a run writes the registers and the two ports, and the state it leaves holds the
configuration it began with. -/
theorem configurationNeverChanges : Obligations.ConfigurationNeverChanges := by
  intro ins s t hrun
  rw [after_eq, Host.Outcome.next.injEq] at hrun
  subst hrun
  rfl

end Sys2Proof.Machine
end

section
/-! PROOFS. Runs compose in the order of their inputs (R58). -/

namespace Sys2Proof.Machine

theorem after_singleton (s : State) (x : Input) : s.after [x] = step (s.feed [x]) := by
  rw [step_eq (rest := []) rfl, after_eq]
  simp [State.feed, runEffect]

/-- A run over two stretches of inputs is the run over the second from where the first ends: the registers and the
responses compose by `runEffect_append`. -/
theorem after_append {s u : State} {xs : List Input} (ys : List Input) (h : s.after xs = .next u) :
    s.after (xs ++ ys) = u.after ys := by
  rw [after_eq, Host.Outcome.next.injEq] at h
  subst h
  simp only [after_eq, runEffect_append, List.append_assoc]

/-- Settles O10: a step is the run over one input, so both clauses are `after_append`. -/
theorem commandsTakeEffectInTheOrderPresented : Obligations.CommandsTakeEffectInTheOrderPresented := by
  intro s t u x xs ys
  constructor
  · intro hstep
    exact after_append xs ((after_singleton s x).trans hstep)
  · exact after_append ys

end Sys2Proof.Machine
end

section
/-! PROOFS. The table entries of a configuration made from byte images (R53). -/

namespace Sys2Proof.Machine

/-- What `configOfImages` builds, entry by entry: the high byte of a PitchTable entry is the one at the odd offset. -/
theorem entries_of_configOfImages {p : Params} {w e pt : List Byte} {c : Config}
    (hc : configOfImages p w e pt = some c) :
    c.toParams = p ∧
    (∀ i, ∀ (_ : i < 1152) (_ : i < w.length), c.wave[i] = w[i]) ∧
    (∀ j, ∀ (_ : j < 1024) (_ : j < e.length), c.env[j] = e[j]) ∧
    (∀ n, ∀ (_ : n < 128) (_ : 2 * n < pt.length) (_ : 2 * n + 1 < pt.length),
      c.pitch[n] = pt[2 * n + 1] ++ pt[2 * n]) := by
  obtain ⟨hguard, hbuilt⟩ := Option.dite_none_right_eq_some.mp hc
  obtain rfl := Option.some.inj hbuilt
  simp only [Vector.getElem_ofFn, implies_true, and_self]

/-- Settles O58: the entries are those of `entries_of_configOfImages`, and the two bytes of a PitchTable entry are taken
apart as they were put together. -/
theorem tableImagesAreReadLittleEndian : Obligations.TableImagesAreReadLittleEndian := by
  intro p w e pt c hc
  obtain ⟨hparams, hwave, henv, hpitch⟩ := entries_of_configOfImages hc
  refine ⟨hparams, fun i h h' => ?wave, fun j h h' => ?env, fun n h h0 h1 => ?pitch⟩
  case wave => exact congrArg BitVec.toInt (hwave i h h')
  case env => exact congrArg BitVec.toNat (henv j h h')
  case pitch =>
    have hentry : pitchEntry c ⟨n, h⟩ = pt[2 * n + 1] ++ pt[2 * n] := hpitch n h h0 h1
    rw [hentry]
    exact ⟨BitVec.extractLsb'_append_eq_right, BitVec.extractLsb'_append_eq_left⟩

end Sys2Proof.Machine
end

section
/-! PROOFS. The decoder by the rows of the opcode map: one statement for all six rows in place of one for each
(R73 to R77). -/

namespace Sys2Proof

open Machine
open Laws.OpcodeRow (opcode)

/-- The must-be-zero bits of an instruction's format (R73). -/
def mustBeZero : Instr → Word
  | .noteOn _ _ => 0x000080FF#32
  | .noteOff | .render | .isFree => 0x00FFFFFF#32
  | .lookup _ | .rdreg _ => 0x0000FFFF#32

/-- The mask of an instruction's row (R75). -/
def rowMask : Instr → Word
  | .noteOn _ _ => 0xFF0080FF#32
  | .noteOff | .render | .isFree => 0xFFFFFFFF#32
  | .lookup _ | .rdreg _ => 0xFF00FFFF#32

/-- The match of an instruction's row (R75). -/
def rowMatch : Instr → Word
  | .noteOn _ _ => 0x01000000#32
  | .noteOff => 0x02000000#32
  | .render => 0x03000000#32
  | .isFree => 0x04000000#32
  | .lookup _ => 0x05000000#32
  | .rdreg _ => 0x06000000#32

/-- The instruction of the same row with the operands a word carries (R74). -/
def withFieldsOf (w : Word) : Instr → Instr
  | .noteOn _ _ => .noteOn (noteField w) (velField w)
  | .noteOff => .noteOff
  | .render => .render
  | .isFree => .isFree
  | .lookup _ => .lookup (noteField w)
  | .rdreg _ => .rdreg (regField w)

/-- The opcode byte selects the row, and the rest of decoding is the check of that row's format (R76). -/
theorem decode_of_opcode {w : Word} {i : Instr} (h : opOf w = opcode i) :
    decode w = checkFormat w (mustBeZero i) (withFieldsOf w i) := by
  cases i with
  | noteOn n v => exact decode_noteOn h
  | noteOff => exact decode_noteOff h
  | render => exact decode_render h
  | isFree => exact decode_isFree h
  | lookup n => exact decode_lookup h
  | rdreg r => exact decode_rdreg h

/-- The opcode byte is that of a row of the map, or (a) of R77 holds. -/
theorem exists_opcode_eq_or_no_opcode (w : Word) : (∃ i, opOf w = opcode i) ∨ opOf w = 0 ∨ 7 ≤ opOf w := by
  rcases opOf_cases w with h | h | h | h | h | h | h
  · exact .inl ⟨.noteOn 0 0, h⟩
  · exact .inl ⟨.noteOff, h⟩
  · exact .inl ⟨.render, h⟩
  · exact .inl ⟨.isFree, h⟩
  · exact .inl ⟨.lookup 0, h⟩
  · exact .inl ⟨.rdreg 0, h⟩
  · exact .inr h

@[simp] theorem opcode_withFieldsOf (w : Word) (i : Instr) : opcode (withFieldsOf w i) = opcode i := by
  cases i <;> rfl

@[simp] theorem mustBeZero_withFieldsOf (w : Word) (i : Instr) : mustBeZero (withFieldsOf w i) = mustBeZero i := by
  cases i <;> rfl

@[simp] theorem withFieldsOf_withFieldsOf (w : Word) (i : Instr) :
    withFieldsOf w (withFieldsOf w i) = withFieldsOf w i := by
  cases i <;> rfl

/-- What decodes to an instruction has its row's opcode, no must-be-zero bit set and its operands. -/
theorem decode_eq_instr_iff {w : Word} {i : Instr} :
    decode w = .instr i ↔
      opOf w = opcode i ∧ w &&& mustBeZero i = 0#32 ∧ i.wf = true ∧ withFieldsOf w i = i := by
  constructor
  · intro hdec
    rcases exists_opcode_eq_or_no_opcode w with ⟨j, hj⟩ | hno
    case inr => simp [decode_no_opcode hno] at hdec
    rw [decode_of_opcode hj, checkFormat_eq_instr] at hdec
    obtain ⟨hzero, hwf, rfl⟩ := hdec
    simp only [opcode_withFieldsOf, mustBeZero_withFieldsOf, withFieldsOf_withFieldsOf]
    exact ⟨hj, hzero, hwf, trivial⟩
  · rintro ⟨hop, hzero, hwf, hfields⟩
    rw [decode_of_opcode hop, checkFormat_eq_instr, hfields]
    exact ⟨hzero, hwf, rfl⟩

theorem and_opcode_mask_toNat (w : Word) : (w &&& 0xFF000000#32).toNat = opOf w * 2 ^ 24 := by
  have hones : (0xFF000000#32).toNat / 2 ^ 24 = 2 ^ 8 - 1 := by decide
  have hzeros : (0xFF000000#32).toNat % 2 ^ 24 = 0 := by decide
  have hhigh : (w &&& 0xFF000000#32).toNat / 2 ^ 24 = w.toNat / 2 ^ 24 % 2 ^ 8 := by
    rw [BitVec.toNat_and, Nat.and_div_two_pow, hones, Nat.and_two_pow_sub_one_eq_mod]
  have hlow : (w &&& 0xFF000000#32).toNat % 2 ^ 24 = 0 := by
    rw [BitVec.toNat_and, Nat.and_mod_two_pow, hzeros, Nat.and_zero]
  have hop : opOf w = w.toNat / 2 ^ 24 := rfl
  omega

theorem rowMatch_toNat (i : Instr) : (rowMatch i).toNat = opcode i * 2 ^ 24 := by
  cases i <;> simp only [rowMatch, opcode] <;> decide

/-- A row's mask covers the opcode and every must-be-zero bit of its format, and nothing else (R75). -/
theorem rowMask_eq_or (i : Instr) : rowMask i = 0xFF000000#32 ||| mustBeZero i := by
  cases i <;> simp only [rowMask, mustBeZero] <;> decide

theorem rowMask_and_opcode_mask (i : Instr) : rowMask i &&& 0xFF000000#32 = 0xFF000000#32 := by
  cases i <;> simp only [rowMask] <;> decide

theorem rowMask_and_mustBeZero (i : Instr) : rowMask i &&& mustBeZero i = mustBeZero i := by
  cases i <;> simp only [rowMask, mustBeZero] <;> decide

theorem rowMatch_and_opcode_mask (i : Instr) : rowMatch i &&& 0xFF000000#32 = rowMatch i := by
  cases i <;> simp only [rowMatch] <;> decide

theorem rowMatch_and_mustBeZero (i : Instr) : rowMatch i &&& mustBeZero i = 0#32 := by
  cases i <;> simp only [rowMatch, mustBeZero] <;> decide

theorem and_opcode_mask_eq_rowMatch_iff (w : Word) (i : Instr) :
    w &&& 0xFF000000#32 = rowMatch i ↔ opOf w = opcode i := by
  rw [← BitVec.toNat_inj, and_opcode_mask_toNat, rowMatch_toNat]
  omega

/-- The mask and match of a row select its opcode and clear its must-be-zero bits. -/
theorem and_rowMask_eq_iff (w : Word) (i : Instr) :
    w &&& rowMask i = rowMatch i ↔ opOf w = opcode i ∧ w &&& mustBeZero i = 0#32 := by
  rw [← and_opcode_mask_eq_rowMatch_iff]
  constructor
  · intro h
    exact ⟨by rw [← rowMask_and_opcode_mask i, ← BitVec.and_assoc, h, rowMatch_and_opcode_mask],
      by rw [← rowMask_and_mustBeZero, ← BitVec.and_assoc, h, rowMatch_and_mustBeZero]⟩
  · rintro ⟨hop, hzero⟩
    rw [rowMask_eq_or, BitVec.and_or_distrib_left, hop, hzero, BitVec.or_zero]

theorem noteField_eq_iff (w : Word) (n : BitVec 8) : noteField w = n ↔ n.toNat = operandOf w := by
  rw [eq_comm, ← BitVec.toNat_inj, noteField_toNat]

theorem regField_eq_iff (w : Word) (r : BitVec 8) : regField w = r ↔ r.toNat = operandOf w := by
  rw [eq_comm, ← BitVec.toNat_inj, regField_toNat]

theorem velField_eq_iff (w : Word) (v : BitVec 7) : velField w = v ↔ v.toNat = velOf w := by
  rw [eq_comm, ← BitVec.toNat_inj, velField_toNat]

/-- R75's table: decoding to an instruction of a row is the mask and match of the row, and the operands. -/
theorem decode_eq_instr_iff_rowMask {w : Word} {i : Instr} :
    decode w = .instr i ↔ w &&& rowMask i = rowMatch i ∧ i.wf = true ∧ withFieldsOf w i = i := by
  rw [decode_eq_instr_iff, and_rowMask_eq_iff, and_assoc]

/-- The mask of must-be-zero bits is `ZeroBitSet`, which says in arithmetic which bits they are. -/
theorem and_mustBeZero_eq_zero_iff {w : Word} {i : Instr} (h : opOf w = opcode i) :
    w &&& mustBeZero i = 0#32 ↔ ¬ ZeroBitSet w := by
  have low24 := and_low_mask_eq_zero w 24 0x00FFFFFF#32 (by decide)
  have low16 := and_low_mask_eq_zero w 16 0x0000FFFF#32 (by decide)
  cases i with
  | noteOn n v => exact (and_noteOn_mask_eq_zero w).trans (by simp [ZeroBitSet, h, opcode])
  | noteOff => exact low24.trans (by simp [ZeroBitSet, h, opcode])
  | render => exact low24.trans (by simp [ZeroBitSet, h, opcode])
  | isFree => exact low24.trans (by simp [ZeroBitSet, h, opcode])
  | lookup n => exact low16.trans (by simp [ZeroBitSet, h, opcode])
  | rdreg r => exact low16.trans (by simp [ZeroBitSet, h, opcode])

theorem wf_withFieldsOf_iff {w : Word} {i : Instr} (h : opOf w = opcode i) :
    (withFieldsOf w i).wf = true ↔ ¬ (opOf w = 6 ∧ 5 < operandOf w) := by
  cases i <;> simp [withFieldsOf, Instr.wf, operandOf, h, opcode]

/-- R77: the words the decoder refuses are those of the three cases. -/
theorem exists_decode_eq_illegal_iff (w : Word) : (∃ why, decode w = .illegal why) ↔ IllegalWord w := by
  rcases exists_opcode_eq_or_no_opcode w with ⟨i, hi⟩ | hno
  · have hknown : ¬ (opOf w = 0 ∨ 7 ≤ opOf w) := by
      rw [hi]
      cases i <;> simp [opcode]
    rw [decode_of_opcode hi, checkFormat_eq_illegal, and_mustBeZero_eq_zero_iff hi, wf_withFieldsOf_iff hi, IllegalWord,
      or_iff_right hknown, not_and_or, not_not, not_not]
  · exact iff_of_true ⟨_, decode_no_opcode hno⟩ (.inl hno)

theorem exists_decode_eq_instr_iff (w : Word) : (∃ i, decode w = .instr i) ↔ ¬ IllegalWord w := by
  rw [← exists_decode_eq_illegal_iff]
  cases decode w <;> simp

end Sys2Proof
end

section
/-! PROOFS. What a step does with a command word, by what the word decodes to (R16, R70, R77). -/

namespace Sys2Proof.Machine

/-- An illegal word is answered `(IllegalCommand, 0)` and does nothing else (R77). -/
theorem step_of_illegalWord {s : State} {w : Word} {rest : List Input} (h : s.inputs = .command w :: rest)
    (hw : IllegalWord w) :
    step s = .next { s with inputs := rest, responses := s.responses ++ [⟨.illegalCommand, 0⟩] } := by
  obtain ⟨why, hdec⟩ := (exists_decode_eq_illegal_iff w).mpr hw
  simp only [step_eq h, inputEffect, hdec]
  rfl

/-- A word that decodes does what `effect` says of its instruction. -/
theorem step_of_decode {s : State} {w : Word} {rest : List Input} {i : Instr} (h : s.inputs = .command w :: rest)
    (hdec : decode w = .instr i) :
    step s = .next { s with
      inputs := rest
      voice := (effect s.cfg s.voice i).1
      responses := s.responses ++ [(effect s.cfg s.voice i).2] } := by
  simp only [step_eq h, inputEffect, hdec]

/-- A command word has exactly one response, legal or not, and its data is 0 unless its status is OK (R70, R72). -/
theorem inputEffect_command_responses (c : Config) (v : Voice c.fracBits) (w : Word) :
    ∃ r, (inputEffect c v (.command w)).2 = [r] ∧ (r.status ≠ .ok → r.data = 0) := by
  cases hdec : decode w with
  | instr i => exact ⟨_, by rw [inputEffect, hdec], fun hr => (effect_error c v i hr).2⟩
  | illegal why => exact ⟨_, by rw [inputEffect, hdec], fun _ => rfl⟩

theorem effect_noteOn_outOfRange (c : Config) (v : Voice c.fracBits) {n : BitVec 8} (vel : BitVec 7)
    (h : 127 < n.toNat) : effect c v (.noteOn n vel) = (v, ⟨.outOfRangeNote, 0⟩) :=
  dif_neg (by omega)

theorem effect_lookup_outOfRange (c : Config) (v : Voice c.fracBits) {n : BitVec 8} (h : 127 < n.toNat) :
    effect c v (.lookup n) = (v, ⟨.outOfRangeNote, 0⟩) :=
  dif_neg (by omega)

end Sys2Proof.Machine
end

section
/-! PROOFS. Encoding: which word selects which command, and what an illegal word answers (R73 to R79). -/

namespace Sys2Proof.Machine

/-- Settles O2: each row is `decode_eq_instr_iff_rowMask` at an instruction of the row, its operands written as numbers;
the check of R77 (c) is that of the instruction's well-formedness. -/
theorem decodeSelectsTheRowOfTheOpcodeMap : Obligations.DecodeSelectsTheRowOfTheOpcodeMap := by
  intro w
  refine ⟨fun n v => ?noteOn, ?noteOff, ?render, ?isFree, fun n => ?lookup, fun r => ?rdreg⟩ <;>
    refine decode_eq_instr_iff_rowMask.trans ?_
  case noteOn => simp [rowMask, rowMatch, Instr.wf, withFieldsOf, noteField_eq_iff, velField_eq_iff]
  case noteOff => simp [rowMask, rowMatch, Instr.wf, withFieldsOf]
  case render => simp [rowMask, rowMatch, Instr.wf, withFieldsOf]
  case isFree => simp [rowMask, rowMatch, Instr.wf, withFieldsOf]
  case lookup => simp [rowMask, rowMatch, Instr.wf, withFieldsOf, noteField_eq_iff]
  case rdreg =>
    have hreg : r.toNat ≤ 5 ∧ r.toNat = operandOf w ↔ r.toNat = operandOf w ∧ operandOf w ≤ 5 := by omega
    simpa [rowMask, rowMatch, Instr.wf, withFieldsOf, regField_eq_iff] using fun _ => hreg

/-- Settles O3: R77's three cases are what the decoder refuses. -/
theorem illegalWordAnswersIllegalCommand : Obligations.IllegalWordAnswersIllegalCommand := by
  intro s w rest hin
  refine ⟨fun hw => ⟨?_, step_of_illegalWord hin hw⟩, fun hw => ?_⟩
  · exact (exists_decode_eq_illegal_iff w).mpr hw
  · exact (exists_decode_eq_instr_iff w).mpr hw

/-- Settles O19: the must-be-zero bits are checked first. A word with one of them set is illegal by (b) of R77; any
other of these two opcodes decodes and reaches the range check of its command. -/
theorem illegalCommandComesBeforeOutOfRangeNote : Obligations.IllegalCommandComesBeforeOutOfRangeNote := by
  intro s w rest hin hop hnote
  have hrange : 127 < (noteField w).toNat := by rw [noteField_toNat]; exact hnote
  refine ⟨fun hzero => step_of_illegalWord hin (.inr (.inl hzero)), fun hzero => ?_⟩
  rcases hop with hop | hop
  · have hdec : decode w = .instr (.noteOn (noteField w) (velField w)) :=
      decode_eq_instr_iff.mpr ⟨hop, (and_mustBeZero_eq_zero_iff hop).mpr hzero, rfl, rfl⟩
    exact ⟨⟨_, hdec⟩, by rw [step_of_decode hin hdec, effect_noteOn_outOfRange _ _ _ hrange]⟩
  · have hdec : decode w = .instr (.lookup (noteField w)) :=
      decode_eq_instr_iff.mpr ⟨hop, (and_mustBeZero_eq_zero_iff hop).mpr hzero, rfl, rfl⟩
    exact ⟨⟨_, hdec⟩, by rw [step_of_decode hin hdec, effect_lookup_outOfRange _ _ hrange]⟩

end Sys2Proof.Machine
end

section
/-! PROOFS. The response port: one response for each command, and its form (R70, R72). -/

namespace Sys2Proof.Machine

/-- Settles O8: `step_eq` takes the input, and `inputEffect_command_responses` counts the responses. -/
theorem eachInputIsTakenAndEachCommandAnsweredOnce : Obligations.EachInputIsTakenAndEachCommandAnsweredOnce := by
  intro s x rest hin
  refine ⟨_, step_eq hin, rfl, rfl, ?_⟩
  rintro w rfl
  obtain ⟨r, hr, -⟩ := inputEffect_command_responses s.cfg s.voice w
  exact ⟨r, congrArg (s.responses ++ ·) hr⟩

theorem statusCode_toNat_le (st : Status) : (statusCode st).toNat ≤ 4 := by cases st <;> decide

theorem statusCode_toNat_eq_zero_iff (st : Status) : (statusCode st).toNat = 0 ↔ st = .ok := by cases st <;> decide

/-- Settles O18: the form of the one response is that of `inputEffect_command_responses`; its word is an append. -/
theorem responseIsStatusThenData : Obligations.ResponseIsStatusThenData := by
  intro s t w rest hin hstep
  rw [step_eq hin, Host.Outcome.next.injEq] at hstep
  subst hstep
  obtain ⟨r, hr, hdata⟩ := inputEffect_command_responses s.cfg s.voice w
  have hcode := statusCode_toNat_eq_zero_iff r.status
  exact ⟨r, congrArg (s.responses ++ ·) hr, statusCode_toNat_le _, hcode, fun hne => hdata (mt hcode.mpr hne),
    append_toNat _ _⟩

end Sys2Proof.Machine
end

section
/-! PROOFS. LOOKUP: its answer is a function of the PitchTable and the note, and nothing else is written (R91 to R93). -/

namespace Sys2Proof.Machine

/-- The answer to LOOKUP, made from the PitchTable and the note alone (R91). -/
def lookupResponse (pitch : Vector (BitVec 16) 128) (n : BitVec 8) : Response :=
  if h : n.toNat < 128 then ⟨.ok, pitch[n.toNat].setWidth 32⟩ else ⟨.outOfRangeNote, 0⟩

theorem lookupResponse_inRange (pitch : Vector (BitVec 16) 128) {n : BitVec 8} (h : n.toNat < 128) :
    lookupResponse pitch n = ⟨.ok, pitch[n.toNat].setWidth 32⟩ :=
  dif_pos h

theorem lookupResponse_outOfRange (pitch : Vector (BitVec 16) 128) {n : BitVec 8} (h : 127 < n.toNat) :
    lookupResponse pitch n = ⟨.outOfRangeNote, 0⟩ :=
  dif_neg (by omega)

/-- LOOKUP appends its answer to the responses and does nothing else, in every state of the voice (R93). -/
theorem exec_lookup (n : BitVec 8) (s : State) :
    exec (.lookup n) s = .next { s with responses := s.responses ++ [lookupResponse s.cfg.pitch n] } := by
  rcases Nat.lt_or_ge n.toNat 128 with h | h
  · rw [lookupResponse_inRange _ h]
    exact execLookup_inRange s h
  · rw [lookupResponse_outOfRange _ h]
    exact execLookup_outOfRange s h

/-- Settles O22: by `exec_lookup` the one response appended is a function of the PitchTable, the same in both states. -/
theorem lookupIsPure : Obligations.LookupIsPure := by
  intro s s' n hpitch
  refine ⟨lookupResponse s.cfg.pitch n, exec_lookup n s, ?_⟩
  rw [exec_lookup, hpitch]

/-- Settles O21: `exec_lookup` with the two cases of `lookupResponse`; a 16-bit entry zero-extended to 32 bits keeps its
value. -/
theorem lookupAnswersTheEntryOrOutOfRange : Obligations.LookupAnswersTheEntryOrOutOfRange := by
  intro s n
  refine ⟨fun h => ⟨s.cfg.pitch[n.toNat].setWidth 32, ?answer, ?value⟩, fun h => ?outOfRange⟩
  case answer => rw [exec_lookup, lookupResponse_inRange _ h]
  case value => exact BitVec.toNat_setWidth_of_le (by decide)
  case outOfRange => rw [exec_lookup, lookupResponse_outOfRange _ h]

end Sys2Proof.Machine
end

section
/-! PROOFS. The WaveTable indices wrap inside the cycle (R101). -/

namespace Sys2Proof.Machine

/-- Where I1 of R33 holds, the shifted phase is already below `L`, and R101's modulo changes nothing. -/
theorem oscIdx_of_phase_lt {c : Config} {phase : BitVec (c.fracBits + 11)}
    (h : phase.toNat < c.cycLen * 2 ^ c.fracBits) : oscIdx c phase = phase.toNat / 2 ^ c.fracBits :=
  Nat.mod_eq_of_lt (Nat.div_lt_of_lt_mul (by rwa [Nat.mul_comm]))

theorem oscFrac_lt (c : Config) (phase : BitVec (c.fracBits + 11)) : oscFrac c phase < 2 ^ c.fracBits :=
  Nat.mod_lt _ (Nat.two_pow_pos _)

theorem oscFrac_of_fracBits_eq_zero {c : Config} (phase : BitVec (c.fracBits + 11)) (h : c.fracBits = 0) :
    oscFrac c phase = 0 := by
  have hone : 2 ^ c.fracBits = 1 := by rw [h, Nat.pow_zero]
  have hlt := oscFrac_lt c phase
  omega

theorem cycleIndex_val_of_lt {c : Config} {k : Nat} (h : k < c.cycLen) : (cycleIndex c k).val = c.cycBase + k := by
  rw [cycleIndex_val, Nat.mod_eq_of_lt h]

/-- One past the last position is the first entry of the cycle. -/
theorem cycleIndex_cycLen (c : Config) : (cycleIndex c c.cycLen).val = c.cycBase := by
  rw [cycleIndex_val, Nat.mod_self, Nat.add_zero]

theorem cycleIndex_mem_cycle (c : Config) (k : Nat) :
    c.cycBase ≤ (cycleIndex c k).val ∧ (cycleIndex c k).val < c.cycBase + c.cycLen :=
  ⟨Nat.le_add_right _ _, Nat.add_lt_add_left (Nat.mod_lt k c.cycLen_pos) _⟩

/-- Settles O23: `idx` is a position of the cycle, so its own index does not wrap; the next one wraps exactly where
`idx` is the last position. -/
theorem waveIndicesWrapInsideTheCycle : Obligations.WaveIndicesWrapInsideTheCycle := by
  intro c phase k
  obtain ⟨hlow, hhigh⟩ := cycleIndex_mem_cycle c k
  refine ⟨oscIdx_of_phase_lt, oscIdx_lt c phase, rfl, oscFrac_of_fracBits_eq_zero phase, ?entry, ?next, ?wrap,
    ⟨hlow, hhigh, (cycleIndex c k).isLt⟩, ?single⟩
  case entry => exact cycleIndex_val_of_lt (oscIdx_lt c phase)
  case next => exact cycleIndex_val_of_lt
  case wrap =>
    intro hlast
    rw [hlast, cycleIndex_cycLen]
  case single =>
    intro hone
    omega

end Sys2Proof.Machine
end

section
/-! PROOFS. The interpolation rounds toward minus infinity and stays between its entries (R103). -/

namespace Sys2Proof.Machine

/-- What is added to the first entry is the floor of `(s1 - s0) * frac / 2^F`. -/
theorem interpolate_floor (c : Config) (s0 s1 : Int) (frac : Nat) :
    (interpolate c s0 s1 frac - s0) * 2 ^ c.fracBits ≤ (s1 - s0) * (frac : Int) ∧
    (s1 - s0) * (frac : Int) < (interpolate c s0 s1 frac - s0 + 1) * 2 ^ c.fracBits := by
  have hfloor := floorDiv_spec ((s1 - s0) * (frac : Int)) (Nat.two_pow_pos c.fracBits)
  rw [Nat.cast_pow, Nat.cast_ofNat] at hfloor
  rwa [interpolate, add_sub_cancel_left]

/-- A rising interpolation never reaches its second entry: the fraction is below 1, and the floor is not above the exact
value. -/
theorem interpolate_lt_of_lt (c : Config) {s0 s1 : Int} {frac : Nat} (hfrac : frac < 2 ^ c.fracBits) (h : s0 < s1) :
    interpolate c s0 s1 frac < s1 := by
  have hfrac' : (frac : Int) < 2 ^ c.fracBits := by exact_mod_cast hfrac
  have hscaled : (interpolate c s0 s1 frac - s0) * 2 ^ c.fracBits < (s1 - s0) * 2 ^ c.fracBits :=
    calc (interpolate c s0 s1 frac - s0) * 2 ^ c.fracBits
      _ ≤ (s1 - s0) * (frac : Int) := (interpolate_floor c s0 s1 frac).1
      _ < (s1 - s0) * 2 ^ c.fracBits := mul_lt_mul_of_pos_left hfrac' (sub_pos.mpr h)
  have := lt_of_mul_lt_mul_right hscaled (by positivity)
  omega

theorem interpolate_frac_zero (c : Config) (s0 s1 : Int) : interpolate c s0 s1 0 = s0 := by
  simp [interpolate, floorDiv]

/-- Settles O24: by `interpolate_between` the value lies between the entries, whichever is the larger, and so in their
8 bits. -/
theorem interpolationFloorsBetweenItsEntries : Obligations.InterpolationFloorsBetweenItsEntries := by
  intro c s0 s1 frac hs0 hs0' hs1 hs1' hfrac
  obtain ⟨hfloor, hfloor'⟩ := interpolate_floor c s0 s1 frac
  obtain ⟨hrising, hfalling⟩ := interpolate_between c s0 s1 hfrac
  refine ⟨hfloor, hfloor', hrising, interpolate_lt_of_lt c hfrac, fun h => hfalling h.le, ?zero, ?bits⟩
  case zero =>
    rintro rfl
    exact interpolate_frac_zero c s0 s1
  case bits =>
    rcases le_total s0 s1 with h | h
    · obtain ⟨hlow, hhigh⟩ := hrising h
      exact ⟨hs0.trans hlow, hhigh.trans hs1'⟩
    · obtain ⟨hlow, hhigh⟩ := hfalling h
      exact ⟨hs1.trans hlow, hhigh.trans hs0'⟩

end Sys2Proof.Machine
end

section
/-! PROOFS. OSC_RENDER returns the sample at the entry phase and writes `phase` only (R104 to R106). -/

namespace Sys2Proof.Machine

theorem interpolate_eq_fdiv (c : Config) (s0 s1 : Int) (frac : Nat) :
    interpolate c s0 s1 frac = s0 + Int.fdiv ((s1 - s0) * (frac : Int)) (2 ^ c.fracBits) := by
  rw [interpolate, floorDiv_eq_fdiv, Nat.cast_pow, Nat.cast_ofNat]

/-- The index of every cycle position is in range, written out as in R101. -/
theorem cycBase_add_mod_lt (c : Config) (k : Nat) : c.cycBase + k % c.cycLen < 1152 :=
  (cycleIndex c k).isLt

theorem waveEntry_eq_of_val_eq (c : Config) {i : Fin 1152} {n : Nat} (hn : n < 1152) (h : i.val = n) :
    waveEntry c i = (c.wave[n]).toInt := by
  subst h
  rfl

/-- Settles O25: the two entries are read at indices of the cycle, which carry their bounds; the sample is their
interpolation, and the register holds the whole of the advanced phase. -/
theorem oscRenderReturnsTheSampleAndAdvancesThePhase :
    Obligations.OscRenderReturnsTheSampleAndAdvancesThePhase := by
  intro c v
  obtain ⟨hlow, hhigh⟩ := oscRender_bounds c v
  refine ⟨cycBase_add_mod_lt c _, cycBase_add_mod_lt c _, waveEntry c (cycleIndex c (oscIdx c v.phase)),
    waveEntry c (cycleIndex c (oscIdx c v.phase + 1)), ?entry, ?next, ?sample, hlow, hhigh, ?phase, rfl⟩
  case entry => exact waveEntry_eq_of_val_eq c _ (cycleIndex_val_of_lt (oscIdx_lt c v.phase))
  case next => exact waveEntry_eq_of_val_eq c _ (cycleIndex_val c _)
  case sample => exact interpolate_eq_fdiv c _ _ (oscFrac c v.phase)
  case phase => exact advancePhase_toNat c v.phase v.inc

end Sys2Proof.Machine
end

section
/-! PROOFS. ENV_TICK in each segment: the amplitude is the entry at the index on entry, and `seg` and `prog` alone are
written (R117, R122, R123). -/

namespace Sys2Proof

/-! Every segment boundary is an EnvelopeTable index, so ten bits hold it (R9). -/

theorem Config.susIndex_lt_size (c : Config) : c.susIndex < 1024 := by
  have := c.susIndex_le
  omega

theorem Config.decStart_lt_size (c : Config) : c.decStart < 1024 := c.decStart_lt.trans c.susIndex_lt_size

theorem Config.attStart_lt_size (c : Config) : c.attStart < 1024 := c.attStart_lt.trans c.decStart_lt_size

theorem Config.relStart_lt_size (c : Config) : c.relStart < 1024 := c.relStart_lt.trans_le c.relEnd_le

end Sys2Proof

namespace Sys2Proof.Machine

theorem enterSegment_seg_prog {F : Nat} (v : Voice F) (g : Segment) {j : Nat} (h : j < 1024) :
    (enterSegment v g j).seg = g ∧ (enterSegment v g j).prog.toNat = j :=
  ⟨enterSegment_seg v g j, enterSegment_prog v g h⟩

theorem Voice.eq_with_seg_prog {F : Nat} {u v : Voice F} (hphase : u.phase = v.phase) (hinc : u.inc = v.inc)
    (hnote : u.note = v.note) (hvel : u.vel = v.vel) : u = { v with seg := u.seg, prog := u.prog } := by
  rw [← hphase, ← hinc, ← hnote, ← hvel]

/-- In the three segments with a moving index the tick reads the entry at the index on entry (R117). -/
theorem envTick_amplitude {c : Config} {v : Voice c.fracBits}
    (h : v.seg = .attack ∨ v.seg = .decay ∨ v.seg = .release) : (envTick c v).1 = envEntry c (progIndex v) := by
  rcases h with h | h | h <;> simp only [envTick, h]

/-- A tick in Release goes on or ends the note. -/
theorem envTick_release_seg {c : Config} {v : Voice c.fracBits} (h : v.seg = .release) :
    (envTick c v).2.seg = .release ∨ (envTick c v).2.seg = .idle := by
  obtain ⟨-, -, -, -, -, hmoves⟩ := envTick_cases c v
  simpa [h] using hmoves

/-- Settles O29: the four other registers are kept by `envTick_cases`; each clause is the equation of its case, and an
index it enters a segment at is below 1024. -/
theorem envTickInEachState : Obligations.EnvTickInEachState := by
  intro c v
  obtain ⟨hamp, hphase, hinc, hnote, hvel, -⟩ := envTick_cases c v
  refine ⟨hamp, Voice.eq_with_seg_prog hphase hinc hnote hvel, envTick_idle, fun hseg => ?attack, fun hseg => ?decay,
    fun hseg => ?sustain, fun hseg => ?release⟩
  case attack =>
    refine ⟨envTick_amplitude (.inl hseg), fun hend => ?_, fun hon => ?_⟩
    · rw [envTick_attack_end hseg hend]
      exact enterSegment_seg_prog v _ c.decStart_lt_size
    · rw [envTick_attack_on hseg hon]
      exact enterSegment_seg_prog v _ (hon.trans c.decStart_lt_size)
  case decay =>
    refine ⟨envTick_amplitude (.inr (.inl hseg)), fun hend => ?_, fun hon => ?_⟩
    · rw [envTick_decay_end hseg hend]
      exact enterSegment_seg_prog v _ c.susIndex_lt_size
    · rw [envTick_decay_on hseg hon]
      exact enterSegment_seg_prog v _ (hon.trans c.susIndex_lt_size)
  case sustain =>
    rw [envTick_sustain hseg]
    exact ⟨⟨c.susIndex_lt_size, rfl⟩, rfl⟩
  case release =>
    refine ⟨envTick_amplitude (.inr (.inr hseg)), fun hend => ?_, fun ⟨hnonzero, hon⟩ => ?_⟩
    · rw [envTick_release_end hseg hend]
      exact ⟨rfl, rfl⟩
    · rw [envTick_release_on hseg hnonzero hon]
      exact enterSegment_seg_prog v _ (hon.trans_le c.relEnd_le)

end Sys2Proof.Machine
end

section
/-! PROOFS. What each command writes to the registers: the rules for `effect`, one a case (R141 to R154). -/

namespace Sys2Proof.Machine

theorem effect_noteOn_inRange (c : Config) (v : Voice c.fracBits) {n : BitVec 8} (vel : BitVec 7) (h : n.toNat < 128) :
    effect c v (.noteOn n vel) = ({ enterSegment v .attack c.attStart with
      inc := pitchEntry c ⟨n.toNat, h⟩, note := n.setWidth 7, vel := vel }, ⟨.ok, 0⟩) :=
  dif_pos h

theorem effect_noteOff_active {c : Config} {v : Voice c.fracBits}
    (h : v.seg = .attack ∨ v.seg = .decay ∨ v.seg = .sustain) :
    effect c v .noteOff = (enterSegment v .release c.relStart, ⟨.ok, 0⟩) := by
  have hactive : ¬ (v.seg = .idle ∨ v.seg = .release) := by
    rcases h with h | h | h <;> simp [h]
  exact if_neg hactive

theorem effect_noteOff_inactive {c : Config} {v : Voice c.fracBits} (h : v.seg = .release ∨ v.seg = .idle) :
    effect c v .noteOff = (v, ⟨.invalidState, 0⟩) :=
  if_pos h.symm

theorem effect_render_idle {c : Config} {v : Voice c.fracBits} (h : v.seg = .idle) :
    effect c v .render = (v, ⟨.ok, 0⟩) :=
  if_pos h

theorem effect_render_sounding {c : Config} {v : Voice c.fracBits} (h : v.seg ≠ .idle) :
    effect c v .render =
      (clearIfIdle { (envTick c v).2 with phase := advancePhase c v.phase v.inc },
        ⟨.ok, sampleData (outputSample (oscRender c v).1 (envTick c v).1 v.vel)⟩) :=
  if_neg h

/-- A RENDER leaves the segment the tick leaves, in Idle too. -/
theorem effect_render_seg (c : Config) (v : Voice c.fracBits) :
    (effect c v .render).1.seg = (envTick c v).2.seg := by
  by_cases h : v.seg = .idle
  · rw [effect_render_idle h, envTick_idle h]
  · rw [effect_render_sounding h, clearIfIdle_seg]

/-- Unless the tick has ended the release, RENDER leaves the index the tick leaves. -/
theorem effect_render_prog {c : Config} {v : Voice c.fracBits} (h : v.seg ≠ .idle)
    (ht : (envTick c v).2.seg ≠ .idle) :
    (effect c v .render).1.prog = (envTick c v).2.prog := by
  rw [effect_render_sounding h, clearIfIdle_sounding (by exact ht)]

/-- Release-complete leaves the reset registers (R153). -/
theorem effect_render_complete {c : Config} {v : Voice c.fracBits} (h : v.seg ≠ .idle)
    (ht : (envTick c v).2.seg = .idle) : (effect c v .render).1 = Voice.reset := by
  rw [effect_render_sounding h, clearIfIdle_idle (by exact ht)]

theorem inputEffect_of_decode {c : Config} {v : Voice c.fracBits} {w : Word} {i : Instr} (h : decode w = .instr i) :
    inputEffect c v (.command w) = ((effect c v i).1, [(effect c v i).2]) := by
  simp only [inputEffect, h]

/-- A command that writes a register is a NOTE_ON in range, a NOTE_OFF or a RENDER. -/
theorem effect_writes {c : Config} {v : Voice c.fracBits} {i : Instr} (h : (effect c v i).1 ≠ v) :
    (∃ n vel, i = .noteOn n vel ∧ n.toNat < 128) ∨ i = .noteOff ∨ i = .render := by
  cases i with
  | noteOn n vel =>
    rcases Nat.lt_or_ge n.toNat 128 with hn | hn
    · exact .inl ⟨n, vel, rfl, hn⟩
    · exact absurd (congrArg Prod.fst (effect_noteOn_outOfRange c v vel hn)) h
  | noteOff => exact .inr (.inl rfl)
  | render => exact .inr (.inr rfl)
  | isFree => exact absurd rfl h
  | lookup n =>
    rcases Nat.lt_or_ge n.toNat 128 with hn | hn
    · exact absurd (congrArg Prod.fst (dif_pos hn)) h
    · exact absurd (congrArg Prod.fst (effect_lookup_outOfRange c v hn)) h
  | rdreg r =>
    refine absurd ?_ h
    simp only [effect]
    cases readRegister v r <;> rfl

end Sys2Proof.Machine
end

section
/-! PROOFS. The transition table of the envelope (R125, R127). -/

namespace Sys2Proof.Machine

/-- A segment and an index that a sounding tick leaves, and that do not end the note, are what RENDER leaves. -/
theorem effect_render_seg_prog {c : Config} {v : Voice c.fracBits} {g g' : Segment} {j : Nat} (hseg : v.seg = g)
    (ht : (envTick c v).2.seg = g' ∧ (envTick c v).2.prog.toNat = j) (hg : g ≠ .idle := by decide)
    (hg' : g' ≠ .idle := by decide) :
    (effect c v .render).1.seg = g' ∧ (effect c v .render).1.prog.toNat = j := by
  obtain ⟨hseg', hprog'⟩ := ht
  rw [effect_render_seg, effect_render_prog (by rwa [hseg]) (by rwa [hseg']), hseg', hprog']
  exact ⟨rfl, rfl⟩

/-- Settles O30: the rows of RENDER are those of the tick in `envTickInEachState`, carried over by
`effect_render_seg_prog`; the invariants say where `prog` stands in Sustain and in Idle. -/
theorem segmentsChangeOnlyByTheTransitionTable : Obligations.SegmentsChangeOnlyByTheTransitionTable := by
  constructor
  · intro s t w rest hin hw hstep
    rw [step_of_illegalWord hin hw, Host.Outcome.next.injEq] at hstep
    subst hstep
    exact ⟨rfl, rfl⟩
  · intro s t i hinv hexec
    rw [exec_eq, Host.Outcome.next.injEq] at hexec
    subst hexec
    obtain ⟨-, -, -, hsusProg, -, hidle⟩ := hinv
    obtain ⟨-, -, -, hattack, hdecay, hsustain, hrelease⟩ := envTickInEachState s.cfg s.voice
    refine ⟨?noteOn, ?noteOnOutOfRange, ?attackEnd, ?attackOn, ?decayEnd, ?decayOn, ?sustain, ?releaseEnd, ?releaseOn,
      ?idle, ?noteOff, ?noteOffInactive, ?writers⟩
    case noteOn =>
      rintro n vel rfl hn
      simp only [effect_noteOn_inRange _ _ _ hn]
      exact enterSegment_seg_prog s.voice _ s.cfg.attStart_lt_size
    case noteOnOutOfRange =>
      rintro n vel rfl hn
      simp only [effect_noteOn_outOfRange _ _ _ hn, and_self]
    case attackEnd =>
      rintro rfl hseg hend
      obtain ⟨-, hrow, -⟩ := hattack hseg
      exact effect_render_seg_prog hseg (hrow hend)
    case attackOn =>
      rintro rfl hseg hon
      obtain ⟨-, -, hrow⟩ := hattack hseg
      exact effect_render_seg_prog hseg (hrow hon)
    case decayEnd =>
      rintro rfl hseg hend
      obtain ⟨-, hrow, -⟩ := hdecay hseg
      exact effect_render_seg_prog hseg (hrow hend)
    case decayOn =>
      rintro rfl hseg hon
      obtain ⟨-, -, hrow⟩ := hdecay hseg
      exact effect_render_seg_prog hseg (hrow hon)
    case sustain =>
      rintro rfl hseg
      obtain ⟨-, htick⟩ := hsustain hseg
      exact effect_render_seg_prog hseg (by rw [htick]; exact ⟨hseg, hsusProg hseg⟩)
    case releaseEnd =>
      rintro rfl hseg hend
      obtain ⟨-, hrow, -⟩ := hrelease hseg
      obtain ⟨hseg', -⟩ := hrow (hend.imp_left (congrArg BitVec.toNat))
      simp only [effect_render_complete (by rw [hseg]; decide) hseg']
      exact ⟨rfl, rfl⟩
    case releaseOn =>
      rintro rfl hseg ⟨hnonzero, hon⟩
      obtain ⟨-, -, hrow⟩ := hrelease hseg
      exact effect_render_seg_prog hseg (hrow ⟨fun hzero => hnonzero (BitVec.eq_of_toNat_eq hzero), hon⟩)
    case idle =>
      rintro rfl hseg
      simp only [effect_render_idle hseg]
      rw [hidle hseg]
      exact ⟨rfl, rfl⟩
    case noteOff =>
      rintro rfl hactive
      simp only [effect_noteOff_active hactive]
      exact enterSegment_seg_prog s.voice _ s.cfg.relStart_lt_size
    case noteOffInactive =>
      rintro rfl hinactive
      simp only [effect_noteOff_inactive hinactive, and_self]
    case writers =>
      rintro (hseg | hprog)
      · exact effect_writes (fun hsame => hseg (congrArg Voice.seg hsame))
      · exact effect_writes (fun hsame => hprog (congrArg Voice.prog hsame))

/-- Settles O37: of the three commands that write a register, NOTE_OFF is refused in Release, and a RENDER's tick goes
from Release to Idle only. -/
theorem onlyNoteOnRetriggersARelease : Obligations.OnlyNoteOnRetriggersARelease := by
  constructor
  · intro s n vel hn
    refine ⟨_, exec_eq _ _, ?_⟩
    simp only [effect_noteOn_inRange _ _ _ hn]
    exact enterSegment_seg_prog s.voice _ s.cfg.attStart_lt_size
  · intro s t i hseg hexec hleft
    rw [exec_eq, Host.Outcome.next.injEq] at hexec
    subst hexec
    have hwrites : (effect s.cfg s.voice i).1 ≠ s.voice :=
      fun hsame => hleft ((congrArg Voice.seg hsame).trans hseg)
    rcases effect_writes hwrites with ⟨n, vel, rfl, hn⟩ | rfl | rfl
    · simp only [effect_noteOn_inRange _ _ _ hn]
      exact .inl ⟨⟨n, vel, rfl⟩, rfl⟩
    · exact absurd (congrArg Prod.fst (effect_noteOff_inactive (.inl hseg))) hwrites
    · have hseg' := envTick_release_seg hseg
      rw [← effect_render_seg] at hseg'
      exact .inr ⟨rfl, hseg'.resolve_left hleft⟩

end Sys2Proof.Machine
end

section
/-! PROOFS. The first RENDER after a NOTE_ON and after a NOTE_OFF (R117, R152). -/

namespace Sys2Proof.Machine

theorem decode_encode_noteOn (n : BitVec 8) (vel : BitVec 7) :
    decode (encode (.noteOn n vel)) = .instr (.noteOn n vel) := by
  obtain ⟨hop, hzero⟩ := Laws.OpcodeRow.noteOn n vel
  have hword := encode_noteOn_toNat n vel
  have hnote : noteField (encode (.noteOn n vel)) = n := by
    rw [noteField_eq_iff, operandOf, hword]
    omega
  have hvel : velField (encode (.noteOn n vel)) = vel := by
    rw [velField_eq_iff, velOf, hword]
    omega
  refine decode_eq_instr_iff.mpr ⟨hop, (and_mustBeZero_eq_zero_iff hop).mpr hzero, rfl, ?_⟩
  rw [withFieldsOf, hnote, hvel]

/-- The data of a sounding RENDER is the floored product of sample, amplitude and velocity: `sext_32` loses nothing of
it (R151, R152). -/
theorem effect_render_response {c : Config} {v : Voice c.fracBits} (h : v.seg ≠ .idle) :
    ∃ d, (effect c v .render).2 = ⟨.ok, d⟩ ∧
      d.toInt = Int.fdiv ((oscRender c v).1 * ((envTick c v).1 : Int) * (v.vel.toNat : Int)) 128 := by
  obtain ⟨hosc, hosc'⟩ := oscRender_bounds c v
  obtain ⟨hamp, -⟩ := envTick_cases c v
  obtain ⟨hlow, hhigh⟩ := outputSample_bounds v.vel hosc hosc' hamp
  refine ⟨_, congrArg Prod.snd (effect_render_sounding h), ?_⟩
  rw [sampleData_toInt (by omega) (by omega), outputSample, floorDiv_eq_fdiv, Nat.cast_ofNat]

/-- After a command that moves the envelope to the start `j` of a segment and keeps the phase, the first RENDER sounds
with `E[j]`. -/
theorem after_command_render {s : State} {w : Word} {i : Instr} {u : Voice s.cfg.fracBits} {j : Nat}
    (hdec : decode w = .instr i) (heff : effect s.cfg s.voice i = (u, ⟨.ok, 0⟩))
    (hseg : u.seg = .attack ∨ u.seg = .decay ∨ u.seg = .release) (hphase : u.phase = s.voice.phase)
    (hprog : u.prog.toNat = j) (hj : j < 1024) :
    ∃ (t : State) (d : Word), s.after [.command w, .command 0x03000000#32] = .next t ∧
      t.responses = s.responses ++ [⟨.ok, 0⟩, ⟨.ok, d⟩] ∧
      d.toInt = Int.fdiv ((oscRender s.cfg s.voice).1 * ((s.cfg.env[j]).toNat : Int) * (u.vel.toNat : Int)) 128 := by
  subst hprog
  have hsounding : u.seg ≠ .idle := by
    rcases hseg with h | h | h <;> simp [h]
  obtain ⟨d, hresponse, hvalue⟩ := effect_render_response hsounding
  refine ⟨_, d, after_eq s _, ?_, ?_⟩
  · simp only [runEffect, inputEffect_of_decode hdec, heff, inputEffect_render, hresponse, List.cons_append,
      List.nil_append]
  · rw [hvalue, oscRender_sample_congr s.cfg hphase, envTick_amplitude hseg]
    rfl

/-- Settles O31: RENDER leaves what one tick leaves by `effect_render_seg` and `effect_render_prog`; NOTE_ON and NOTE_OFF
enter their segment at its start, where `after_command_render` reads. -/
theorem firstRenderReadsTheStartOfTheSegment : Obligations.FirstRenderReadsTheStartOfTheSegment := by
  refine ⟨fun c v => envTick_amplitude, fun s hsounding => ?_, fun s n vel => ⟨fun hn => ?_, fun hactive => ?_⟩⟩
  · obtain ⟨d, hresponse, -⟩ := effect_render_response hsounding
    have hseg := effect_render_seg s.cfg s.voice
    exact ⟨_, d, by rw [exec_eq, hresponse], hseg, fun hgoing => effect_render_prog hsounding (hseg ▸ hgoing)⟩
  · exact ⟨s.cfg.attStart_lt_size, after_command_render (decode_encode_noteOn n vel)
      (effect_noteOn_inRange s.cfg s.voice vel hn) (.inl rfl) rfl
      (enterSegment_prog s.voice .attack s.cfg.attStart_lt_size) s.cfg.attStart_lt_size⟩
  · exact ⟨s.cfg.relStart_lt_size, after_command_render (i := .noteOff) (by decide)
      (effect_noteOff_active hactive) (.inr (.inr rfl)) rfl
      (enterSegment_prog s.voice .release s.cfg.relStart_lt_size) s.cfg.relStart_lt_size⟩

end Sys2Proof.Machine
end

section
/-! PROOFS. NOTE_ON and NOTE_OFF: the registers each writes, and the refusals that write none (R141 to R147). -/

namespace Sys2Proof.Machine

/-- A command whose effect is known answers with exactly that. -/
theorem exec_of_effect {s : State} {i : Instr} {v : Voice s.cfg.fracBits} {st : Status} {d : Word}
    (h : effect s.cfg s.voice i = (v, ⟨st, d⟩)) : exec i s = .next (s.answer v st d) := by
  rw [exec_eq, h]

/-- Settles O35: the two cases of the note's range check; a note below 128 fits the seven bits of `note`. -/
theorem noteOnStartsTheNoteOrIsOutOfRange : Obligations.NoteOnStartsTheNoteOrIsOutOfRange := by
  intro s n vel
  refine ⟨fun h => ⟨_, exec_of_effect (effect_noteOn_inRange _ _ vel h), rfl, rfl, ?prog, ?note, rfl, rfl⟩,
    fun h => exec_of_effect (effect_noteOn_outOfRange _ _ vel h)⟩
  case prog => exact enterSegment_prog s.voice .attack s.cfg.attStart_lt_size
  case note => exact (BitVec.toNat_setWidth ..).trans (Nat.mod_eq_of_lt h)

/-- Of the registers on entry an accepted NOTE_ON uses `phase` alone (R143). -/
theorem effect_noteOn_congr_phase (c : Config) {v v' : Voice c.fracBits} {n : BitVec 8} (vel : BitVec 7)
    (h : n.toNat < 128) (hphase : v'.phase = v.phase) : effect c v' (.noteOn n vel) = effect c v (.noteOn n vel) := by
  rw [effect_noteOn_inRange c v' vel h, effect_noteOn_inRange c v vel h]
  simp only [enterSegment, hphase]

/-- Settles O36: by `effect_noteOn_congr_phase` the two states take the same registers; in Idle the invariants give the
reset value of `phase`, which is kept. -/
theorem retriggerKeepsOnlyThePhase : Obligations.RetriggerKeepsOnlyThePhase := by
  rintro s s' v' n vel hn hphase rfl
  have hnew := effect_noteOn_inRange s.cfg s.voice vel hn
  refine ⟨_, exec_of_effect hnew, ?_, rfl, ?_⟩
  · exact exec_of_effect (s := { s with voice := v' }) ((effect_noteOn_congr_phase s.cfg vel hn hphase).trans hnew)
  · rintro ⟨-, -, -, -, -, hreset⟩ hidle
    rw [enterSegment_phase, hreset hidle]
    rfl

/-- Settles O39: the two cases of the lifecycle check. -/
theorem noteOffStartsTheRelease : Obligations.NoteOffStartsTheRelease := by
  intro s
  refine ⟨fun hactive => ⟨_, exec_of_effect (effect_noteOff_active hactive), rfl, ?prog, rfl, rfl, rfl, rfl⟩,
    fun hinactive => exec_of_effect (effect_noteOff_inactive hinactive.symm)⟩
  case prog => exact enterSegment_prog s.voice .release s.cfg.relStart_lt_size

/-- The segments where NOTE_OFF is accepted and those where it is refused are all there are (R30, R146). -/
theorem Segment.active_or_inactive (g : Segment) :
    (g = .attack ∨ g = .decay ∨ g = .sustain) ∨ (g = .release ∨ g = .idle) := by
  cases g <;> decide

/-- Settles O40: whatever the first NOTE_OFF finds, it leaves Release or Idle, where the second is refused. -/
theorem noteOffTwiceIsNoteOffOnce : Obligations.NoteOffTwiceIsNoteOffOnce := by
  intro s
  rcases Segment.active_or_inactive s.voice.seg with hactive | hinactive
  · refine ⟨_, _, exec_of_effect (effect_noteOff_active hactive), rfl,
      exec_of_effect (effect_noteOff_inactive (.inl rfl)), fun hinactive => ?_⟩
    rcases hinactive with h | h <;> simp [h] at hactive
  · exact ⟨_, _, exec_of_effect (effect_noteOff_inactive hinactive), rfl,
      exec_of_effect (effect_noteOff_inactive hinactive), fun _ => rfl⟩

end Sys2Proof.Machine
end

section
/-! PROOFS. ISFREE answers the lifecycle (R160). -/

namespace Sys2Proof.Machine

theorem effect_isFree_idle {c : Config} {v : Voice c.fracBits} (h : v.seg = .idle) :
    effect c v .isFree = (v, ⟨.ok, 1⟩) :=
  Prod.ext rfl (congrArg (Response.mk .ok) (if_pos h))

theorem effect_isFree_sounding {c : Config} {v : Voice c.fracBits} (h : v.seg ≠ .idle) :
    effect c v .isFree = (v, ⟨.ok, 0⟩) :=
  Prod.ext rfl (congrArg (Response.mk .ok) (if_neg h))

/-- Settles O47: the two cases of `seg`. -/
theorem isFreeAnswersWhetherIdle : Obligations.IsFreeAnswersWhetherIdle := fun _ =>
  ⟨fun hidle => exec_of_effect (effect_isFree_idle hidle),
    fun hsounding => exec_of_effect (effect_isFree_sounding hsounding)⟩

end Sys2Proof.Machine
end

section
/-! PROOFS. RENDER: silence in Idle, else the floored product of the three factors and release-complete (R151 to
R154). -/

namespace Sys2Proof.Machine

/-- A run whose effect is known leaves exactly that. -/
theorem after_of_runEffect {s : State} {ins : List Input} {v : Voice s.cfg.fracBits} {rs : List Response}
    (h : runEffect s.cfg ins s.voice = (v, rs)) : s.after ins = .next (s.done v rs) := by
  rw [after_eq, h]

/-- An idle voice stays as it is and sounds 0 under any number of RENDERs (R154). -/
theorem runEffect_renders_idle {c : Config} {v : Voice c.fracBits} (n : Nat) (h : v.seg = .idle) :
    runEffect c (renders n) v = (v, List.replicate n ⟨.ok, 0⟩) := by
  induction n with
  | zero => rfl
  | succ n ih => rw [runEffect_render, effect_render_idle h, ih, List.replicate_succ]

/-- Settles O41: one RENDER by `effect_render_idle`, any number by `runEffect_renders_idle`. -/
theorem renderInIdleIsSilence : Obligations.RenderInIdleIsSilence := fun _ n hidle =>
  ⟨exec_of_effect (effect_render_idle hidle), after_of_runEffect (runEffect_renders_idle n hidle)⟩

/-- Where the note goes on, RENDER writes the oscillator's phase and the tick's segment and index (R151). -/
theorem effect_render_going {c : Config} {v : Voice c.fracBits} (h : v.seg ≠ .idle)
    (ht : (envTick c v).2.seg ≠ .idle) :
    (effect c v .render).1 =
      { v with
        phase := (oscRender c v).2.phase
        seg := (envTick c v).2.seg
        prog := (envTick c v).2.prog } := by
  obtain ⟨-, -, hinc, hnote, hvel, -⟩ := envTick_cases c v
  rw [effect_render_sounding h, clearIfIdle_sounding (by exact ht)]
  simp only [oscRender_phase, hinc, hnote, hvel]

/-- Settles O42: the response is `effect_render_response`; the registers are those of `effect_render_going`, or the reset
ones where the tick has reached Idle. -/
theorem renderMultipliesSampleAmplitudeVelocity : Obligations.RenderMultipliesSampleAmplitudeVelocity := by
  intro s
  refine ⟨fun hidle => exec_of_effect (effect_render_idle hidle), fun hsounding => ?_⟩
  obtain ⟨d, hresponse, hvalue⟩ := effect_render_response hsounding
  refine ⟨(effect s.cfg s.voice .render).1, d, exec_of_effect (Prod.ext rfl hresponse), hvalue,
    effect_render_going hsounding, fun hended => ?_⟩
  rw [effect_render_complete hsounding hended]
  exact ⟨rfl, rfl, rfl, rfl, rfl, rfl⟩

end Sys2Proof.Machine
end

section
/-! PROOFS. The output value: its range and its 16 bits (R152). -/

namespace Sys2Proof.Machine

/-- The product of the three factors is at most `128 * 255 * 127` in magnitude. -/
theorem abs_product_le {y : Int} {a : Nat} (vel : BitVec 7) (hy : |y| ≤ 128) (ha : a ≤ 255) :
    |y * (a : Int) * (vel.toNat : Int)| ≤ 4145280 := by
  have ha' : |(a : Int)| ≤ 255 := by rw [Nat.abs_cast]; exact_mod_cast ha
  have hvel : |(vel.toNat : Int)| ≤ 127 := by rw [Nat.abs_cast]; have := vel.isLt; omega
  calc |y * (a : Int) * (vel.toNat : Int)|
    _ = |y| * |(a : Int)| * |(vel.toNat : Int)| := by rw [abs_mul, abs_mul]
    _ ≤ 128 * 255 * 127 := by gcongr

/-- The output is the floor of a 128th of the product (R11, R152). -/
theorem outputSample_floor (y : Int) (a : Nat) (vel : BitVec 7) :
    128 * outputSample y a vel ≤ y * (a : Int) * (vel.toNat : Int) ∧
    y * (a : Int) * (vel.toNat : Int) < 128 * (outputSample y a vel + 1) := by
  have hfloor := floorDiv_spec (y * (a : Int) * (vel.toNat : Int)) (b := 128) (by decide)
  rwa [Nat.cast_ofNat, Int.mul_comm _ 128, Int.mul_comm _ 128] at hfloor

/-- Bits 15:0 of `data` are the sample modulo `2^16`. -/
theorem sampleData_low16 (x : Int) : (sampleData x).extractLsb' 0 16 = BitVec.ofInt 16 x := by
  apply BitVec.eq_of_toNat_eq
  simp only [sampleData, BitVec.extractLsb'_toNat, BitVec.toNat_ofInt, Nat.shiftRight_zero]
  omega

/-- A sample that fits 16 bits signed is the value of bits 15:0. -/
theorem sampleData_low16_toInt {x : Int} (h1 : -2 ^ 15 ≤ x) (h2 : x < 2 ^ 15) :
    ((sampleData x).extractLsb' 0 16).toInt = x := by
  rw [sampleData_low16]
  exact BitVec.toInt_ofInt_eq_self (by decide) h1 h2

/-- Settles O43: `outputSample` is a floor by `outputSample_floor`, in range by `outputSample_bounds`; a value of 16 bits
signed and its sign extension to 32 bits are the same integer. -/
theorem outputIsFlooredInRangeAndSignExtended : Obligations.OutputIsFlooredInRangeAndSignExtended := by
  intro y a vel hy hy' ha
  obtain ⟨hfloor, hfloor'⟩ := outputSample_floor y a vel
  obtain ⟨hprod, hprod'⟩ := abs_le.mp (abs_product_le vel (abs_le.mpr ⟨hy, by omega⟩) ha)
  obtain ⟨hlow, hhigh⟩ := outputSample_bounds vel hy hy' ha
  have hdata : (sampleData (outputSample y a vel)).toInt = outputSample y a vel :=
    sampleData_toInt (by omega) (by omega)
  have hbits : ((sampleData (outputSample y a vel)).extractLsb' 0 16).toInt = outputSample y a vel :=
    sampleData_low16_toInt (by omega) (by omega)
  refine ⟨hfloor, hfloor', hprod, hprod', hlow, hhigh, hdata, hbits, BitVec.eq_of_toInt_eq ?_⟩
  rw [BitVec.toInt_signExtend_of_le (by decide), hbits, hdata]

end Sys2Proof.Machine
end

section
/-! PROOFS. Velocity 0: the same envelope as with any velocity, at level 0 (R144). -/

namespace Sys2Proof.Machine

/-- A tick does not read `vel` (R28, R29). -/
theorem envTick_withVel (c : Config) (v : Voice c.fracBits) (w : BitVec 7) :
    envTick c { v with vel := w } = ((envTick c v).1, { (envTick c v).2 with vel := w }) := by
  obtain ⟨phase, inc, seg, prog, note, vel⟩ := v
  cases seg with
  | idle => rfl
  | attack => simp only [envTick, progIndex]; split_ifs <;> rfl
  | decay => simp only [envTick, progIndex]; split_ifs <;> rfl
  | sustain => rfl
  | release =>
    by_cases hend : envEntry c ⟨prog.toNat, prog.isLt⟩ = 0 ∨ c.relEnd ≤ prog.toNat + 1
    · rw [envTick_release_end (v := ⟨phase, inc, .release, prog, note, vel⟩) rfl hend]
      exact envTick_release_end rfl hend
    · obtain ⟨hnonzero, hon⟩ := not_or.mp hend
      rw [envTick_release_on (v := ⟨phase, inc, .release, prog, note, vel⟩) rfl hnonzero (not_le.mp hon)]
      exact envTick_release_on rfl hnonzero (not_le.mp hon)

/-- A tick leaves an active voice active: only Release ends (R125). -/
theorem envTick_active {c : Config} {v : Voice c.fracBits} (h : v.seg ≠ .idle ∧ v.seg ≠ .release) :
    (envTick c v).2.seg ≠ .idle ∧ (envTick c v).2.seg ≠ .release := by
  obtain ⟨hidle, hrelease⟩ := h
  obtain ⟨-, -, -, -, -, hsame | ⟨-, hmoved⟩ | ⟨-, hmoved⟩ | ⟨hended, -⟩⟩ := envTick_cases c v
  · rw [hsame]
    exact ⟨hidle, hrelease⟩
  · simp [hmoved]
  · simp [hmoved]
  · exact absurd hended hrelease

theorem outputSample_vel_zero (y : Int) (a : Nat) : outputSample y a 0 = 0 := by
  simp [outputSample, floorDiv]

/-- With velocity 0 in the register a RENDER of an active voice sounds 0 and moves the other registers as with any
velocity. -/
theorem effect_render_vel_zero {c : Config} {v : Voice c.fracBits} (h : v.seg ≠ .idle ∧ v.seg ≠ .release) :
    effect c { v with vel := 0 } .render = ({ (effect c v .render).1 with vel := 0 }, ⟨.ok, 0⟩) := by
  obtain ⟨hnext, -⟩ := envTick_active h
  rw [effect_render_sounding h.1, effect_render_sounding (v := { v with vel := 0 }) h.1, envTick_withVel,
    outputSample_vel_zero, clearIfIdle_sounding (by exact hnext), clearIfIdle_sounding (by exact hnext)]
  rfl

/-- The same for any number of RENDERs; the voice stays active. -/
theorem runEffect_renders_vel_zero {c : Config} {v : Voice c.fracBits} (k : Nat)
    (h : v.seg ≠ .idle ∧ v.seg ≠ .release) :
    runEffect c (renders k) { v with vel := 0 } =
      ({ (runEffect c (renders k) v).1 with vel := 0 }, List.replicate k ⟨.ok, 0⟩) ∧
    (runEffect c (renders k) v).1.seg ≠ .idle ∧ (runEffect c (renders k) v).1.seg ≠ .release := by
  induction k generalizing v with
  | zero => exact ⟨rfl, h⟩
  | succ k ih =>
    have hnext : (effect c v .render).1.seg ≠ .idle ∧ (effect c v .render).1.seg ≠ .release := by
      rw [effect_render_seg]
      exact envTick_active h
    obtain ⟨hrun, hactive⟩ := ih hnext
    rw [runEffect_render, runEffect_render, effect_render_vel_zero h, hrun]
    exact ⟨rfl, hactive⟩

/-- A run whose first input is the word of an instruction. -/
theorem runEffect_cons_of_decode {c : Config} {v : Voice c.fracBits} {w : Word} {i : Instr} (ins : List Input)
    (h : decode w = .instr i) :
    runEffect c (.command w :: ins) v =
      ((runEffect c ins (effect c v i).1).1, (effect c v i).2 :: (runEffect c ins (effect c v i).1).2) := by
  rw [runEffect, inputEffect_of_decode h, List.singleton_append]

/-- Settles O38: an accepted NOTE_ON leaves the same registers but `vel`, in Attack, and from there
`runEffect_renders_vel_zero` runs the two notes side by side. -/
theorem velocityZeroSoundsAtZeroLevel : Obligations.VelocityZeroSoundsAtZeroLevel := by
  intro s n vel k hn
  have hattack : (effect s.cfg s.voice (.noteOn n vel)).1.seg = .attack := by
    rw [effect_noteOn_inRange _ _ _ hn]
    rfl
  have hzero : effect s.cfg s.voice (.noteOn n 0) =
      ({ (effect s.cfg s.voice (.noteOn n vel)).1 with vel := 0 }, ⟨.ok, 0⟩) := by
    rw [effect_noteOn_inRange _ _ _ hn, effect_noteOn_inRange _ _ _ hn]
  obtain ⟨hrun, hactive⟩ := runEffect_renders_vel_zero k (c := s.cfg) (v := (effect s.cfg s.voice (.noteOn n vel)).1)
    (by simp [hattack])
  refine ⟨_, _, after_of_runEffect (runEffect_cons_of_decode _ (decode_encode_noteOn n vel)), after_of_runEffect ?_,
    hactive⟩
  rw [runEffect_cons_of_decode _ (decode_encode_noteOn n 0), hzero, hrun, List.replicate_succ]

end Sys2Proof.Machine
end

section
/-! PROOFS. RDREG: its answer is a function of the six registers and the number, and nothing else is written (R165,
R166). -/

namespace Sys2Proof.Machine

/-- `REG[0]` to `REG[5]` as numbers (R165), in a form that does not depend on the width of `phase`. -/
def Voice.registers {F : Nat} (v : Voice F) : List Nat :=
  [v.phase.toNat, v.inc.toNat, (segCode v.seg).toNat, v.prog.toNat, v.note.toNat, v.vel.toNat]

theorem Voice.registers_length {F : Nat} (v : Voice F) : v.registers.length = 6 := rfl

theorem Voice.registers_reset {F : Nat} : (Voice.reset : Voice F).registers = List.replicate 6 0 := by
  simp [Voice.registers, Voice.reset, segCode, List.replicate]

/-- Every register is narrower than 32 bits: `phase` has at most 16 + 11 of them (R165). -/
theorem Voice.registers_lt {F : Nat} (v : Voice F) (hF : F ≤ 16) {x : Nat} (hx : x ∈ v.registers) : x < 2 ^ 32 := by
  have hphase : v.phase.toNat < 2 ^ 32 := v.phase.isLt.trans_le (Nat.pow_le_pow_right (by decide) (by omega))
  simp only [Voice.registers, List.mem_cons, List.not_mem_nil, or_false] at hx
  rcases hx with rfl | rfl | rfl | rfl | rfl | rfl
  · exact hphase
  all_goals omega

/-- `readRegister` is the zero-extended entry of the list of registers, where there is one. -/
theorem readRegister_eq_registers {F : Nat} (v : Voice F) (r : BitVec 8) :
    readRegister v r = v.registers[r.toNat]?.map (BitVec.ofNat 32) := by
  rcases Nat.lt_or_ge 5 r.toNat with h | h
  · rw [readRegister_none h, List.getElem?_eq_none h]
    rfl
  · unfold readRegister
    interval_cases r.toNat <;> simp [Voice.registers]

/-- The answer to RDREG, made from the registers and the number alone (R165). -/
def rdregResponse (regs : List Nat) (r : BitVec 8) : Response :=
  match regs[r.toNat]? with
  | some x => ⟨.ok, BitVec.ofNat 32 x⟩
  | none => ⟨.illegalCommand, 0⟩

theorem effect_rdreg (c : Config) (v : Voice c.fracBits) (r : BitVec 8) :
    effect c v (.rdreg r) = (v, rdregResponse v.registers r) := by
  simp only [effect, rdregResponse, readRegister_eq_registers]
  cases v.registers[r.toNat]? <;> rfl

theorem effect_rdreg_inRange (c : Config) (v : Voice c.fracBits) {r : BitVec 8} (h : r.toNat ≤ 5) :
    ∃ d, effect c v (.rdreg r) = (v, ⟨.ok, d⟩) ∧ v.registers[r.toNat]? = some d.toNat := by
  obtain ⟨x, hx⟩ : ∃ x, v.registers[r.toNat]? = some x :=
    ⟨_, List.getElem?_eq_getElem (by rw [Voice.registers_length]; omega)⟩
  have hlt := v.registers_lt c.fracBits_le (List.mem_of_getElem? hx)
  refine ⟨BitVec.ofNat 32 x, ?_, ?_⟩
  · rw [effect_rdreg, rdregResponse, hx]
  · rw [hx, BitVec.toNat_ofNat, Nat.mod_eq_of_lt hlt]

theorem effect_rdreg_outOfRange (c : Config) (v : Voice c.fracBits) {r : BitVec 8} (h : 5 < r.toNat) :
    effect c v (.rdreg r) = (v, ⟨.illegalCommand, 0⟩) := by
  rw [effect_rdreg, rdregResponse, List.getElem?_eq_none h]

/-- Settles O49: by `effect_rdreg` the response is made from the list of registers, equal in both states; a command that
changes a register is one of `effect_writes`. -/
theorem rdregIsPureAndNoCommandWritesByNumber : Obligations.RdregIsPureAndNoCommandWritesByNumber := by
  refine ⟨fun s s' r hphase hinc hseg hprog hnote hvel => ?pure, fun s i => ?writers⟩
  case pure =>
    have hregs : s'.voice.registers = s.voice.registers := by
      simp only [Voice.registers, hphase, hinc, hseg, hprog, hnote, hvel]
    refine ⟨rdregResponse s.voice.registers r, ?_, ?_⟩
    · rw [exec_eq, effect_rdreg]
    · rw [exec_eq, effect_rdreg, hregs]
  case writers =>
    refine ⟨_, _, _, exec_eq i s, fun hne => ?_⟩
    rcases effect_writes hne with ⟨n, vel, hi, -⟩ | hi | hi
    · exact .inl ⟨n, vel, hi⟩
    · exact .inr (.inl hi)
    · exact .inr (.inr hi)

/-- Settles O48: the answer is the entry of `Voice.registers` with the number; in Idle every entry is 0 by I4. -/
theorem rdregReadsTheNumberedRegister : Obligations.RdregReadsTheNumberedRegister := by
  intro s r
  refine ⟨fun hr => ?_, fun hr => exec_of_effect (effect_rdreg_outOfRange _ _ hr)⟩
  obtain ⟨d, heffect, hd⟩ := effect_rdreg_inRange s.cfg s.voice hr
  have hreg {n x : Nat} (hx : s.voice.registers[n]? = some x) (hn : r.toNat = n) : d.toNat = x := by
    rw [hn, hx, Option.some.injEq] at hd
    exact hd.symm
  have hseg {g : Segment} (hn : r.toNat = 2) (hg : s.voice.seg = g) : d.toNat = (segCode g).toNat :=
    hg ▸ hreg rfl hn
  have hidle (hinv : s.Inv) (hg : s.voice.seg = .idle) : d.toNat = 0 := by
    obtain ⟨-, -, -, -, -, hreset⟩ := hinv
    rw [hreset hg, Voice.registers_reset] at hd
    exact List.eq_of_mem_replicate (List.mem_of_getElem? hd)
  exact ⟨d, exec_of_effect heffect, hreg rfl, hreg rfl, hseg, hseg, hseg, hseg, hseg, hreg rfl, hreg rfl, hreg rfl,
    hidle⟩

end Sys2Proof.Machine
end

section
/-! PROOFS. The status of a command, as a function of the word and the segment alone, and what raises each (R170 to
R175). -/

namespace Sys2Proof.Machine

/-- The status of a command: no table, no parameter and no register but `seg` is among what it is made from (R171,
R175). -/
def instrStatus (g : Segment) : Instr → Status
  | .noteOn n _ | .lookup n => if 127 < n.toNat then .outOfRangeNote else .ok
  | .noteOff => if g = .idle ∨ g = .release then .invalidState else .ok
  | .render | .isFree => .ok
  | .rdreg r => if 5 < r.toNat then .illegalCommand else .ok

/-- The status of a command word, legal or not. -/
def wordStatus (g : Segment) (w : Word) : Status :=
  match decode w with
  | .instr i => instrStatus g i
  | .illegal _ => .illegalCommand

theorem wordStatus_of_decode {g : Segment} {w : Word} {i : Instr} (h : decode w = .instr i) :
    wordStatus g w = instrStatus g i := by
  simp only [wordStatus, h]

theorem wordStatus_of_illegal {g : Segment} {w : Word} {why : IllegalReason} (h : decode w = .illegal why) :
    wordStatus g w = .illegalCommand := by
  simp only [wordStatus, h]

theorem instrStatus_eq_outOfRangeNote_iff {g : Segment} {i : Instr} :
    instrStatus g i = .outOfRangeNote ↔ ∃ n : BitVec 8, 127 < n.toNat ∧ ((∃ v, i = .noteOn n v) ∨ i = .lookup n) := by
  cases i <;> simp [instrStatus, ite_eq_iff]

theorem instrStatus_eq_invalidState_iff {g : Segment} {i : Instr} :
    instrStatus g i = .invalidState ↔ i = .noteOff ∧ (g = .idle ∨ g = .release) := by
  cases i <;> simp [instrStatus, ite_eq_iff, or_iff_not_imp_left]

theorem instrStatus_ne_tableIndexOverflow (g : Segment) (i : Instr) : instrStatus g i ≠ .tableIndexOverflow := by
  cases i <;> simp [instrStatus, ite_eq_iff]

/-- A command raises IllegalCommand only where no word encodes it, so the decoder has refused it first (R77 (c)). -/
theorem instrStatus_eq_illegalCommand_iff {g : Segment} {i : Instr} :
    instrStatus g i = .illegalCommand ↔ i.wf = false := by
  cases i <;> simp [instrStatus, Instr.wf, ite_eq_iff]

/-- The statuses other than IllegalCommand are raised by a command that the word decodes to. -/
theorem wordStatus_eq_iff {g : Segment} {w : Word} {st : Status} (hst : st ≠ .illegalCommand) :
    wordStatus g w = st ↔ ∃ i, decode w = .instr i ∧ instrStatus g i = st := by
  cases hdec : decode w with
  | instr i => simp [wordStatus_of_decode hdec]
  | illegal why => simp [wordStatus_of_illegal hdec, hst.symm]

theorem wordStatus_eq_outOfRangeNote_iff {g : Segment} {w : Word} :
    wordStatus g w = .outOfRangeNote ↔
      ∃ n : BitVec 8, 127 < n.toNat ∧ ((∃ v, decode w = .instr (.noteOn n v)) ∨ decode w = .instr (.lookup n)) := by
  simp only [wordStatus_eq_iff (by decide : Status.outOfRangeNote ≠ .illegalCommand), instrStatus_eq_outOfRangeNote_iff]
  constructor
  · rintro ⟨i, hdec, n, hn, ⟨v, rfl⟩ | rfl⟩
    · exact ⟨n, hn, .inl ⟨v, hdec⟩⟩
    · exact ⟨n, hn, .inr hdec⟩
  · rintro ⟨n, hn, ⟨v, hdec⟩ | hdec⟩
    · exact ⟨_, hdec, n, hn, .inl ⟨v, rfl⟩⟩
    · exact ⟨_, hdec, n, hn, .inr rfl⟩

theorem wordStatus_eq_invalidState_iff {g : Segment} {w : Word} :
    wordStatus g w = .invalidState ↔ decode w = .instr .noteOff ∧ (g = .idle ∨ g = .release) := by
  simp [wordStatus_eq_iff, instrStatus_eq_invalidState_iff]

theorem wordStatus_ne_tableIndexOverflow (g : Segment) (w : Word) : wordStatus g w ≠ .tableIndexOverflow := by
  simp [wordStatus_eq_iff, instrStatus_ne_tableIndexOverflow]

theorem wordStatus_eq_illegalCommand_iff {g : Segment} {w : Word} : wordStatus g w = .illegalCommand ↔ IllegalWord w := by
  rw [← exists_decode_eq_illegal_iff]
  cases hdec : decode w with
  | instr i =>
    obtain ⟨-, -, hwf, -⟩ := decode_eq_instr_iff.mp hdec
    simp [wordStatus_of_decode hdec, instrStatus_eq_illegalCommand_iff, hwf]
  | illegal why => simp [wordStatus_of_illegal hdec]

theorem effect_status (c : Config) (v : Voice c.fracBits) (i : Instr) :
    (effect c v i).2.status = instrStatus v.seg i := by
  cases i with
  | noteOn n vel =>
    rcases Nat.lt_or_ge 127 n.toNat with h | h
    · rw [effect_noteOn_outOfRange c v vel h, instrStatus, if_pos h]
    · rw [effect_noteOn_inRange c v vel (Nat.lt_succ_of_le h), instrStatus, if_neg (Nat.not_lt.mpr h)]
  | noteOff =>
    rcases v.seg.active_or_inactive with h | h
    · rw [effect_noteOff_active h, instrStatus, if_neg (by rcases h with h | h | h <;> simp [h])]
    · rw [effect_noteOff_inactive h, instrStatus, if_pos h.symm]
  | render =>
    by_cases h : v.seg = .idle
    · rw [effect_render_idle h, instrStatus]
    · rw [effect_render_sounding h, instrStatus]
  | isFree => rfl
  | lookup n =>
    rcases Nat.lt_or_ge 127 n.toNat with h | h
    · rw [effect_lookup_outOfRange c v h, instrStatus, if_pos h]
    · rw [effect, dif_pos (Nat.lt_succ_of_le h), instrStatus, if_neg (Nat.not_lt.mpr h)]
  | rdreg r =>
    rcases Nat.lt_or_ge 5 r.toNat with h | h
    · rw [effect_rdreg_outOfRange c v h, instrStatus, if_pos h]
    · obtain ⟨d, heffect, -⟩ := effect_rdreg_inRange c v h
      rw [heffect, instrStatus, if_neg (Nat.not_lt.mpr h)]

theorem inputEffect_of_illegal {c : Config} {v : Voice c.fracBits} {w : Word} {why : IllegalReason}
    (h : decode w = .illegal why) : inputEffect c v (.command w) = (v, [⟨.illegalCommand, 0#32⟩]) := by
  simp only [inputEffect, h]

theorem inputEffect_command_status (c : Config) (v : Voice c.fracBits) (w : Word) :
    ∃ r, (inputEffect c v (.command w)).2 = [r] ∧ r.status = wordStatus v.seg w := by
  cases hdec : decode w with
  | instr i => exact ⟨_, congrArg Prod.snd (inputEffect_of_decode hdec), by rw [effect_status, wordStatus_of_decode hdec]⟩
  | illegal why => exact ⟨_, congrArg Prod.snd (inputEffect_of_illegal hdec), (wordStatus_of_illegal hdec).symm⟩

/-- A command word whose status is not OK is answered with data 0, and the registers stay (R175). -/
theorem inputEffect_command_error {c : Config} {v : Voice c.fracBits} {w : Word} (h : wordStatus v.seg w ≠ .ok) :
    inputEffect c v (.command w) = (v, [⟨wordStatus v.seg w, 0⟩]) := by
  cases hdec : decode w with
  | instr i =>
    rw [wordStatus_of_decode hdec, ← effect_status c v i] at h ⊢
    obtain ⟨hvoice, hdata⟩ := effect_error c v i h
    rw [inputEffect_of_decode hdec, hvoice, ← hdata]
  | illegal why =>
    rw [wordStatus_of_illegal hdec]
    exact inputEffect_of_illegal hdec

end Sys2Proof.Machine
end

section
/-! PROOFS. Errors: a status other than OK comes with data 0 and no write, under any configuration (R170 to R175). -/

namespace Sys2Proof.Machine

/-- A step over a command word whose status is not OK: the input is taken and the error answered, and that is all. Which
configuration the state holds makes no difference (R175). -/
theorem step_error {s : State} {w : Word} {rest : List Input} (hin : s.inputs = .command w :: rest)
    (h : wordStatus s.voice.seg w ≠ .ok) :
    step s = .next { s with
      inputs := rest
      responses := s.responses ++ [⟨wordStatus s.voice.seg w, 0⟩] } := by
  rw [step_eq hin, inputEffect_command_error h]

/-- The response a step over a command word appends has the word's status. -/
theorem status_of_step {s t : State} {w : Word} {rest : List Input} {r : Response}
    (hin : s.inputs = .command w :: rest) (hstep : step s = .next t) (hresp : t.responses = s.responses ++ [r]) :
    r.status = wordStatus s.voice.seg w := by
  rw [step_eq hin, Host.Outcome.next.injEq] at hstep
  subst hstep
  obtain ⟨r', hr', hstatus⟩ := inputEffect_command_status s.cfg s.voice w
  rw [hr', List.append_cancel_left_eq, List.cons.injEq] at hresp
  rw [← hresp.1, hstatus]

/-- The response of an error step is its status with data 0, and the state is that of `step_error`. -/
theorem error_of_step {s t : State} {w : Word} {rest : List Input} {r : Response}
    (hin : s.inputs = .command w :: rest) (hstep : step s = .next t) (hresp : t.responses = s.responses ++ [r])
    (hr : r.status ≠ .ok) :
    r = ⟨wordStatus s.voice.seg w, 0⟩ ∧ t = { s with inputs := rest, responses := s.responses ++ [r] } := by
  rw [status_of_step hin hstep hresp] at hr
  rw [step_error hin hr, Host.Outcome.next.injEq] at hstep
  subst hstep
  rw [List.append_cancel_left_eq, List.cons.injEq] at hresp
  obtain ⟨rfl, -⟩ := hresp
  exact ⟨rfl, rfl⟩

/-- Settles O16: the status is made from the word and `seg`, which are the same under the other configuration, so
`step_error` applies in both states. -/
theorem errorChangesNothingAndReadsNoTable : Obligations.ErrorChangesNothingAndReadsNoTable := by
  intro s t w rest r hin hstep hresp hr
  have hstatus : wordStatus s.voice.seg w ≠ .ok := status_of_step hin hstep hresp ▸ hr
  obtain ⟨rfl, ht⟩ := error_of_step hin hstep hresp hr
  exact ⟨rfl, ht, fun p tables h => step_error (s := s.withConfig p tables h) hin hstatus⟩

/-- Settles O17: the response has the status of `wordStatus`, whose rules name each cause; the last clause is
`error_of_step`. -/
theorem eachStatusHasItsCauseAndNoOther : Obligations.EachStatusHasItsCauseAndNoOther := by
  refine ⟨fun s t w rest r hin hstep hresp => ?_, by decide⟩
  have hstatus := status_of_step hin hstep hresp
  refine ⟨hstatus ▸ wordStatus_eq_outOfRangeNote_iff, hstatus ▸ wordStatus_eq_invalidState_iff,
    hstatus ▸ wordStatus_ne_tableIndexOverflow _ w, hstatus ▸ wordStatus_eq_illegalCommand_iff, fun hr => ?_⟩
  obtain ⟨rfl, ht⟩ := error_of_step hin hstep hresp hr
  exact ⟨rfl, ht⟩

end Sys2Proof.Machine
end


section
/-! PROOFS. The reset input: which fields a step over it writes (R190, R191). -/

namespace Sys2Proof.Machine

/-- A step over the reset input takes it and resets the registers; configuration and responses stay (R190, R191). -/
theorem step_reset {s : State} {rest : List Input} (hin : s.inputs = .reset :: rest) :
    step s = .next { s with inputs := rest, voice := Voice.reset } := by
  rw [step_eq hin]
  simp only [inputEffect, List.append_nil]

/-- The reset values of the registers as numbers (R190). -/
theorem Voice.reset_values {F : Nat} :
    (Voice.reset : Voice F).phase.toNat = 0 ∧ (Voice.reset : Voice F).inc.toNat = 0 ∧
    segCode (Voice.reset : Voice F).seg = 0 ∧ (Voice.reset : Voice F).prog.toNat = 0 ∧
    (Voice.reset : Voice F).note.toNat = 0 ∧ (Voice.reset : Voice F).vel.toNat = 0 := by
  simp [segCode]

/-- Settles O11: the next state is that of `step_reset`, and its registers read as `Voice.reset_values` says. -/
theorem resetInputGivesTheResetState : Obligations.ResetInputGivesTheResetState := by
  intro s rest hin
  obtain ⟨hphase, hinc, hseg, hprog, hnote, hvel⟩ := Voice.reset_values (F := s.cfg.fracBits)
  exact ⟨_, step_reset hin, hphase, hinc, Voice.reset_seg, hseg, hprog, hnote, hvel, rfl, rfl, rfl, reset_voice⟩

end Sys2Proof.Machine
end

section
/-! PROOFS. Encoding and decoding are inverse on the well-formed instructions and the legal words (R73 to R78). -/

namespace Sys2Proof

open Machine
open Laws.OpcodeRow (opcode)

/-- An encoded instruction carries its row's opcode and sets no must-be-zero bit. -/
theorem opcode_encode (i : Instr) : Laws.OpcodeRow.Statement i := by
  cases i with
  | noteOn n v => exact Laws.OpcodeRow.noteOn n v
  | noteOff => exact Laws.OpcodeRow.noteOff
  | render => exact Laws.OpcodeRow.render
  | isFree => exact Laws.OpcodeRow.isFree
  | lookup n => exact Laws.OpcodeRow.lookup n
  | rdreg r => exact Laws.OpcodeRow.rdreg r

/-- The operand fields of an encoded instruction hold its operands (R74). -/
theorem withFieldsOf_encode (i : Instr) : withFieldsOf (encode i) i = i := by
  cases i with
  | noteOn n v =>
    have hnote : noteField (encode (.noteOn n v)) = n := by
      rw [noteField_eq_iff, operandOf, encode_noteOn_toNat]
      omega
    have hvel : velField (encode (.noteOn n v)) = v := by
      rw [velField_eq_iff, velOf, encode_noteOn_toNat]
      omega
    rw [withFieldsOf, hnote, hvel]
  | noteOff | render | isFree => rfl
  | lookup n =>
    have hnote : noteField (encode (.lookup n)) = n := by
      rw [noteField_eq_iff, operandOf, encode_lookup_toNat]
      omega
    rw [withFieldsOf, hnote]
  | rdreg r =>
    have hreg : regField (encode (.rdreg r)) = r := by
      rw [regField_eq_iff, operandOf, encode_rdreg_toNat]
      omega
    rw [withFieldsOf, hreg]

/-- An encoded instruction passes every check of the decoder but that of the register number (R77). -/
theorem decode_encode (i : Instr) : decode (encode i) = if i.wf then .instr i else .illegal .register := by
  obtain ⟨hop, hzero⟩ := opcode_encode i
  rw [decode_of_opcode hop, withFieldsOf_encode, checkFormat, if_pos ((and_mustBeZero_eq_zero_iff hop).mpr hzero)]

/-- Settles O5: the opcode, the must-be-zero bits and the fields of the encoded word are those of the instruction, by
`decode_encode`. -/
theorem decodeOfEncodeIsTheInstruction : Obligations.DecodeOfEncodeIsTheInstruction :=
  fun i hwf => (decode_encode i).trans (if_pos hwf)

/-- The opcode, the fields and the must-be-zero bits are all the bits of a word (R73). -/
theorem encode_withFieldsOf {w : Word} {i : Instr} (hop : opOf w = opcode i) (hzero : ¬ ZeroBitSet w) :
    encode (withFieldsOf w i) = w := by
  apply BitVec.eq_of_toNat_eq
  simp only [ZeroBitSet, opOf] at hop hzero
  cases i with
  | noteOn n v =>
    simp only [withFieldsOf, encode_noteOn_toNat, noteField_toNat, velField_toNat, opcode] at hop ⊢
    omega
  | noteOff =>
    simp only [withFieldsOf, encode_noteOff_toNat, opcode] at hop ⊢
    omega
  | render =>
    simp only [withFieldsOf, encode_render_toNat, opcode] at hop ⊢
    omega
  | isFree =>
    simp only [withFieldsOf, encode_isFree_toNat, opcode] at hop ⊢
    omega
  | lookup n =>
    simp only [withFieldsOf, encode_lookup_toNat, noteField_toNat, opcode] at hop ⊢
    omega
  | rdreg r =>
    simp only [withFieldsOf, encode_rdreg_toNat, regField_toNat, opcode] at hop ⊢
    omega

/-- Settles O6: `decode_eq_instr_iff` says what was checked, and a word is its opcode and fields by
`encode_withFieldsOf`. -/
theorem encodeOfDecodeIsTheWord : Obligations.EncodeOfDecodeIsTheWord := by
  intro w i hdec
  obtain ⟨hop, hzero, hwf, hfields⟩ := decode_eq_instr_iff.mp hdec
  exact ⟨hwf, hfields ▸ encode_withFieldsOf hop ((and_mustBeZero_eq_zero_iff hop).mp hzero)⟩

/-- Settles O4: by the two round trips, encoding is one to one from the well-formed instructions onto the words that
decode, and these are the legal ones. -/
theorem everyWordHasOneMeaningOrIsIllegal : Obligations.EveryWordHasOneMeaningOrIsIllegal := by
  intro w
  have hround : ∀ j : Instr, j.wf = true → encode j = w → decode w = .instr j := by
    rintro j hwf rfl
    exact decodeOfEncodeIsTheInstruction j hwf
  refine ⟨fun hlegal => ?_, fun hillegal i hwf henc => ?_⟩
  · obtain ⟨i, hdec⟩ := (exists_decode_eq_instr_iff w).mpr hlegal
    obtain ⟨hwf, henc⟩ := encodeOfDecodeIsTheWord w i hdec
    refine ⟨i, ⟨hwf, henc, hdec⟩, fun j hwf' henc' => ?_⟩
    exact Decoded.instr.inj ((hround j hwf' henc').symm.trans hdec)
  · exact (exists_decode_eq_instr_iff w).mp ⟨i, hround i hwf henc⟩ hillegal

/-- Settles O1: the legal words are encodings, which decode by `decodeOfEncodeIsTheInstruction`; each of the six illegal
words fails the check the spec names. -/
theorem workedEncodingsDecode : Obligations.WorkedEncodingsDecode := by
  refine ⟨decodeOfEncodeIsTheInstruction (.noteOn 60 100) rfl, decodeOfEncodeIsTheInstruction (.noteOn 69 127) rfl,
    decodeOfEncodeIsTheInstruction (.noteOn 200 1) rfl, decodeOfEncodeIsTheInstruction .noteOff rfl,
    decodeOfEncodeIsTheInstruction .render rfl, decodeOfEncodeIsTheInstruction .isFree rfl,
    decodeOfEncodeIsTheInstruction (.lookup 69) rfl, decodeOfEncodeIsTheInstruction (.rdreg 0) rfl,
    decodeOfEncodeIsTheInstruction (.rdreg 5) rfl, ?illegal⟩
  case illegal => decide

end Sys2Proof
end

section
/-! PROOFS. The invariants of the voice registers (R33). -/

namespace Sys2Proof.Machine

/-- The EnvelopeTable indices that I3 allows in a sounding segment. -/
def ProgInSegment (c : Config) (g : Segment) (j : Nat) : Prop :=
  match g with
  | .idle => True
  | .attack => c.attStart ≤ j ∧ j < c.decStart
  | .decay => c.decStart ≤ j ∧ j < c.susIndex
  | .sustain => j = c.susIndex
  | .release => c.relStart ≤ j ∧ j < c.relEnd

/-- Of a sounding voice the invariants are I1 and the range of `prog` in its segment. -/
theorem Voice.inv_iff_of_sounding {c : Config} {v : Voice c.fracBits} (h : v.seg ≠ .idle) :
    v.Inv c ↔ v.phase.toNat < phaseMod c ∧ ProgInSegment c v.seg v.prog.toNat := by
  cases hseg : v.seg <;> simp_all [Voice.Inv, ProgInSegment, phaseMod]

/-- The reset registers have the invariants. -/
theorem Voice.inv_reset (c : Config) : (Voice.reset : Voice c.fracBits).Inv c := by
  simp [Voice.Inv, c.cycLen_pos]

theorem ProgInSegment.of_seg_prog {F : Nat} {c : Config} {v : Voice F} {g : Segment} {j : Nat}
    (hv : v.seg = g ∧ v.prog.toNat = j) (h : ProgInSegment c g j) : ProgInSegment c v.seg v.prog.toNat := by
  obtain ⟨rfl, rfl⟩ := hv
  exact h

/-- A tick keeps `prog` in the range of the segment it leaves the voice in (I3). -/
theorem progInSegment_envTick {c : Config} {v : Voice c.fracBits} (h : ProgInSegment c v.seg v.prog.toNat) :
    ProgInSegment c (envTick c v).2.seg (envTick c v).2.prog.toNat := by
  obtain ⟨-, -, hidle, hattack, hdecay, hsustain, hrelease⟩ := envTickInEachState c v
  cases hseg : v.seg with
  | idle => rwa [hidle hseg]
  | attack =>
    obtain ⟨-, hend, hon⟩ := hattack hseg
    rw [hseg] at h
    obtain ⟨hlow, -⟩ := h
    rcases Nat.lt_or_ge (v.prog.toNat + 1) c.decStart with hnext | hnext
    · exact .of_seg_prog (hon hnext) ⟨by omega, hnext⟩
    · exact .of_seg_prog (hend hnext) ⟨le_rfl, c.decStart_lt⟩
  | decay =>
    obtain ⟨-, hend, hon⟩ := hdecay hseg
    rw [hseg] at h
    obtain ⟨hlow, -⟩ := h
    rcases Nat.lt_or_ge (v.prog.toNat + 1) c.susIndex with hnext | hnext
    · exact .of_seg_prog (hon hnext) ⟨by omega, hnext⟩
    · exact .of_seg_prog (g := .sustain) (hend hnext) rfl
  | sustain =>
    obtain ⟨-, hsame⟩ := hsustain hseg
    rwa [hsame]
  | release =>
    obtain ⟨-, hend, hon⟩ := hrelease hseg
    rw [hseg] at h
    obtain ⟨hlow, -⟩ := h
    by_cases hended : (c.env[v.prog.toNat]'v.prog.isLt).toNat = 0 ∨ c.relEnd ≤ v.prog.toNat + 1
    · obtain ⟨hseg', -⟩ := hend hended
      rw [hseg']
      trivial
    · obtain ⟨hnonzero, hlast⟩ := not_or.mp hended
      have hnext := Nat.not_le.mp hlast
      exact .of_seg_prog (g := .release) (hon ⟨hnonzero, hnext⟩) ⟨by omega, hnext⟩

/-- A voice that sounds on after a RENDER has an advanced phase, below the modulus, and the tick's index; one whose note
has ended is reset. -/
theorem effect_render_inv {c : Config} {v : Voice c.fracBits} (h : v.Inv c) : (effect c v .render).1.Inv c := by
  by_cases hidle : v.seg = .idle
  · rwa [effect_render_idle hidle]
  · obtain ⟨-, hprog⟩ := (Voice.inv_iff_of_sounding hidle).mp h
    by_cases hended : (envTick c v).2.seg = .idle
    · rw [effect_render_complete hidle hended]
      exact Voice.inv_reset c
    · rw [effect_render_going hidle hended, Voice.inv_iff_of_sounding (by exact hended)]
      exact ⟨advancePhase_lt c v.phase v.inc, progInSegment_envTick hprog⟩

/-- A NOTE_OFF that writes a register has found the voice active (R146, R147). -/
theorem effect_noteOff_of_ne {c : Config} {v : Voice c.fracBits} (h : (effect c v .noteOff).1 ≠ v) :
    (effect c v .noteOff).1 = enterSegment v .release c.relStart := by
  rcases v.seg.active_or_inactive with hactive | hinactive
  · rw [effect_noteOff_active hactive]
  · exact absurd (congrArg Prod.fst (effect_noteOff_inactive hinactive)) h

/-- Every command keeps the invariants: NOTE_ON and NOTE_OFF enter a segment at its first index. -/
theorem effect_inv {c : Config} {v : Voice c.fracBits} (h : v.Inv c) (i : Instr) : (effect c v i).1.Inv c := by
  by_cases hsame : (effect c v i).1 = v
  · rwa [hsame]
  have ⟨hphase, _⟩ := h
  rcases effect_writes hsame with ⟨n, vel, rfl, hn⟩ | rfl | rfl
  · rw [effect_noteOn_inRange c v vel hn]
    exact (Voice.inv_iff_of_sounding (by simp)).mpr
      ⟨hphase, .of_seg_prog (enterSegment_seg_prog v .attack c.attStart_lt_size) ⟨le_rfl, c.attStart_lt⟩⟩
  · rw [effect_noteOff_of_ne hsame]
    exact (Voice.inv_iff_of_sounding (by simp)).mpr
      ⟨hphase, .of_seg_prog (enterSegment_seg_prog v .release c.relStart_lt_size) ⟨le_rfl, c.relStart_lt⟩⟩
  · exact effect_render_inv h

/-- So does every input: the reset input makes the reset registers, and an illegal word writes none. -/
theorem inputEffect_inv {c : Config} {v : Voice c.fracBits} (h : v.Inv c) (x : Input) :
    (inputEffect c v x).1.Inv c := by
  cases x with
  | reset => exact Voice.inv_reset c
  | command w =>
    cases hdec : decode w with
    | instr i =>
      rw [inputEffect_of_decode hdec]
      exact effect_inv h i
    | illegal why => rwa [inputEffect_of_illegal hdec]

/-- Settles O50: a step takes an input, and `inputEffect_inv` applies, or has none to take and changes nothing. -/
theorem stepKeepsTheVoiceInvariants : Obligations.StepKeepsTheVoiceInvariants := by
  intro s t hinv hstep
  cases hin : s.inputs with
  | nil =>
    rw [step_nothing hin, Host.Outcome.next.injEq] at hstep
    rwa [← hstep]
  | cons x rest =>
    rw [step_eq hin, Host.Outcome.next.injEq] at hstep
    subst hstep
    exact inputEffect_inv hinv x

/-- Settles O51: `Voice.inv_reset` at the configuration the block was built with. -/
theorem resetStateHasTheVoiceInvariants : Obligations.ResetStateHasTheVoiceInvariants :=
  Voice.inv_reset Config.installed

/-- Settles O53: the lifecycle functions name their segments, every segment belongs to one of them, and I4 ties Idle to
the reset registers. -/
theorem freeIsExactlyTheResetState : Obligations.FreeIsExactlyTheResetState := by
  rintro s ⟨-, -, -, -, -, hreset⟩
  have hfree : isFreeSeg s.voice.seg = true ↔ s.voice = Voice.reset :=
    isFreeSeg_iff.trans ⟨hreset, congrArg Voice.seg⟩
  refine ⟨hfree, isReleasingSeg_iff, isActiveSeg_iff, ?_⟩
  cases s.voice.seg <;> decide

end Sys2Proof.Machine
end

section
/-! PROOFS. Single steps: the decoded command, nothing presented, and commands that cannot fail (R16, R176, R179). -/

namespace Sys2Proof.Machine

/-- Settles O7: a step and `exec` both write what `effect` says of the instruction. -/
theorem stepPerformsTheDecodedCommand : Obligations.StepPerformsTheDecodedCommand := by
  intro s w rest i hin hdec
  rw [step_of_decode hin hdec, exec_eq]

/-- Settles O9: `step_nothing` and `step_reset`. -/
theorem nothingPresentedAndResetAnswerNothing : Obligations.NothingPresentedAndResetAnswerNothing :=
  fun _ => ⟨step_nothing, fun _ hin => ⟨_, step_reset hin, rfl⟩⟩

/-- Settles O12: `State.reset` holds the registers of `Voice.reset_values`. -/
theorem resetStateRegistersAreZero : Obligations.ResetStateRegistersAreZero :=
  Voice.reset_values

/-- A command whose status is OK in the segment the voice is in is answered with OK. -/
theorem step_answers_ok {s : State} {w : Word} {rest : List Input} {i : Instr} (hin : s.inputs = .command w :: rest)
    (hdec : decode w = .instr i) (hok : instrStatus s.voice.seg i = .ok) :
    ∃ t d, step s = .next t ∧ t.responses = s.responses ++ [⟨.ok, d⟩] := by
  refine ⟨_, (effect s.cfg s.voice i).2.data, step_of_decode hin hdec, ?_⟩
  rw [← hok, ← effect_status]

/-- Settles O20: the status of the two commands is OK whatever the segment. -/
theorem renderAndIsFreeNeverFail : Obligations.RenderAndIsFreeNeverFail := by
  rintro s w rest hin (rfl | rfl)
  · exact step_answers_ok (i := .render) hin (by decide) rfl
  · exact step_answers_ok (i := .isFree) hin (by decide) rfl

/-- An idle voice is left as it is by every command but a NOTE_ON in range (R194). -/
theorem effect_idle {c : Config} {v : Voice c.fracBits} {i : Instr} (h : v.seg = .idle)
    (hi : ∀ n vel, i = .noteOn n vel → 127 < n.toNat) : (effect c v i).1 = v := by
  by_contra hne
  rcases effect_writes hne with ⟨n, vel, rfl, hn⟩ | rfl | rfl
  · have := hi n vel rfl
    omega
  · exact hne (congrArg Prod.fst (effect_noteOff_inactive (.inr h)))
  · exact hne (congrArg Prod.fst (effect_render_idle h))

/-- Settles O13: the reset registers are idle, so `effect_idle` keeps them, and RENDER and ISFREE answer as in Idle. -/
theorem silentAfterResetUntilNoteOn : Obligations.SilentAfterResetUntilNoteOn := by
  intro s i hreset hi
  have hidle : s.voice.seg = .idle := congrArg Voice.seg hreset
  refine ⟨_, exec_eq i s, (effect_idle hidle hi).trans hreset, ?render, ?isFree⟩
  case render =>
    rintro rfl
    exact ⟨rfl, rfl, by rw [effect_render_idle hidle]⟩
  case isFree =>
    rintro rfl
    exact ⟨rfl, rfl, by rw [effect_isFree_idle hidle]⟩

end Sys2Proof.Machine
end

section
/-! PROOFS. Runs: what a sequence of inputs is answered with, and the queries among them (R166, R198, R201). -/

namespace Sys2Proof.Machine

/-- A run returns one response for each command among its inputs. -/
theorem runEffect_responses_length (c : Config) (ins : List Input) (v : Voice c.fracBits) :
    (runEffect c ins v).2.length = commandCount ins := by
  induction ins generalizing v with
  | nil => rfl
  | cons x ins ih =>
    cases x with
    | reset => rw [runEffect, inputEffect, commandCount, List.nil_append, ih]
    | command w =>
      obtain ⟨r, hr, -⟩ := inputEffect_command_responses c v w
      rw [runEffect, hr, commandCount, List.length_append, ih, List.length_singleton, Nat.add_comm]

/-- Settles O15: both runs leave `runEffect` of the configuration, the registers and the inputs. -/
theorem responseSequenceIsUnique : Obligations.ResponseSequenceIsUnique := fun s ins _ _ =>
  ⟨_, _, after_eq s ins, after_eq _ ins, runEffect_responses_length s.cfg ins s.voice⟩

/-- The word of a query, legal or not, has one response and writes no register. -/
theorem inputEffect_query {q : Instr} (hq : q = .isFree ∨ (∃ n, q = .lookup n) ∨ ∃ r, q = .rdreg r) (c : Config)
    (v : Voice c.fracBits) : ∃ r, inputEffect c v (.command (encode q)) = (v, [r]) := by
  have hkeeps : (effect c v q).1 = v := by
    by_contra hne
    rcases effect_writes hne with ⟨n, vel, rfl, -⟩ | rfl | rfl <;> simp at hq
  have hdec := decode_encode q
  split at hdec
  · exact ⟨(effect c v q).2, by rw [inputEffect_of_decode hdec, hkeeps]⟩
  · exact ⟨_, inputEffect_of_illegal hdec⟩

/-- Settles O57: after the query the registers are as before, so the rest of the run is the same. -/
theorem queriesDoNotDisturbWhatFollows : Obligations.QueriesDoNotDisturbWhatFollows := by
  intro s q ins hq
  obtain ⟨r, hquery⟩ := inputEffect_query hq s.cfg s.voice
  refine ⟨_, r, _, after_eq s ins, after_of_runEffect ?_⟩
  rw [runEffect, hquery, List.singleton_append]

end Sys2Proof.Machine
end

section
/-! PROOFS. The phase under repeated OSC_RENDERs: law, period and width (R10, R104 to R109). -/

namespace Sys2Proof.Machine

theorem oscTimes_succ (c : Config) (n : Nat) (v : Voice c.fracBits) :
    oscTimes c (n + 1) v = oscTimes c n (oscRender c v).2 := rfl

theorem oscTimes_add (c : Config) (m n : Nat) (v : Voice c.fracBits) :
    oscTimes c (m + n) v = oscTimes c n (oscTimes c m v) := by
  induction m generalizing v with
  | zero => rw [Nat.zero_add, oscTimes]
  | succ m ih => rw [Nat.succ_add, oscTimes_succ, oscTimes_succ, ih]

/-- OSC_RENDER writes `phase` only, however often (R106). -/
theorem oscTimes_eq_withPhase (c : Config) (n : Nat) (v : Voice c.fracBits) :
    oscTimes c n v = { v with phase := (oscTimes c n v).phase } := by
  induction n generalizing v with
  | zero => rfl
  | succ n ih =>
    rw [oscTimes_succ, ih]
    rfl

/-- The advances of single steps add up modulo `L * 2^F` (R108). -/
theorem oscTimes_phase_toNat {c : Config} {v : Voice c.fracBits} (n : Nat) (h : v.phase.toNat < phaseMod c) :
    (oscTimes c n v).phase.toNat = (v.phase.toNat + n * v.inc.toNat) % phaseMod c := by
  induction n generalizing v with
  | zero => simp [oscTimes, Nat.mod_eq_of_lt h]
  | succ n ih =>
    have hnext : (oscRender c v).2.phase.toNat = (v.phase.toNat + v.inc.toNat) % phaseMod c :=
      advancePhase_toNat c v.phase v.inc
    rw [oscTimes_succ, ih (advancePhase_lt c v.phase v.inc), hnext, oscRender_inc, Nat.mod_add_mod, Nat.succ_mul,
      Nat.add_assoc, Nat.add_comm v.inc.toNat]

/-- Settles O27: `oscTimes_phase_toNat` and `oscTimes_eq_withPhase`. -/
theorem phaseLawIsExact : Obligations.PhaseLawIsExact := fun c v n h =>
  ⟨oscTimes_phase_toNat n h, oscTimes_eq_withPhase c n v⟩

/-- The voice is back where it was exactly where the modulus divides the whole advance. -/
theorem oscTimes_eq_self_iff {c : Config} {v : Voice c.fracBits} (n : Nat) (h : v.phase.toNat < phaseMod c) :
    oscTimes c n v = v ↔ phaseMod c ∣ n * v.inc.toNat := by
  have hphase : oscTimes c n v = v ↔ (oscTimes c n v).phase = v.phase := by
    refine ⟨congrArg Voice.phase, fun hsame => ?_⟩
    rw [oscTimes_eq_withPhase, hsame]
  rw [hphase, ← BitVec.toNat_inj, oscTimes_phase_toNat n h, ← Nat.add_modEq_left_iff (a := v.phase.toNat), Nat.ModEq,
    Nat.mod_eq_of_lt h]

/-- Settles O26: with increment 0 the whole advance is 0, which the modulus divides. -/
theorem zeroIncrementFreezesThePhase : Obligations.ZeroIncrementFreezesThePhase := by
  intro c v n h hinc
  have hsame : oscTimes c n v = v := (oscTimes_eq_self_iff n h).mpr (by simp [hinc])
  rw [hsame]
  exact ⟨rfl, rfl⟩

/-- The smallest number of steps of `i` that is a multiple of `m` is `m / gcd(i, m)`. -/
theorem dvd_mul_iff_div_gcd_dvd {m : Nat} (hm : 0 < m) (n i : Nat) : m ∣ n * i ↔ m / Nat.gcd i m ∣ n := by
  rw [Nat.gcd_comm i m, Nat.div_dvd_iff_dvd_mul (Nat.gcd_dvd_left m i) (Nat.gcd_pos_of_pos_left i hm),
    Nat.dvd_gcd_mul_iff_dvd_mul, Nat.mul_comm]

/-- Settles O28: the voice returns by `oscTimes_eq_self_iff`; after one period it has returned, so the samples
repeat. -/
theorem phaseHasTheExactPeriod : Obligations.PhaseHasTheExactPeriod := by
  intro c v n h _
  have hperiod (k : Nat) : oscTimes c k v = v ↔
      c.cycLen * 2 ^ c.fracBits / Nat.gcd v.inc.toNat (c.cycLen * 2 ^ c.fracBits) ∣ k :=
    (oscTimes_eq_self_iff k h).trans (dvd_mul_iff_div_gcd_dvd (phaseMod_pos c) k v.inc.toNat)
  refine ⟨hperiod n, ?_⟩
  rw [Nat.add_comm, oscTimes_add, (hperiod _).mpr dvd_rfl]

/-- Settles O52: the modulus fits by `phaseMod_lt`, so the advance is the true modulo; RDREG of register 0 answers the
whole register. -/
theorem phaseFitsItsRegister : Obligations.PhaseFitsItsRegister := by
  intro s
  obtain ⟨d, heffect, hd⟩ := effect_rdreg_inRange s.cfg s.voice (r := 0) (by decide)
  have hvalue : d.toNat = s.voice.phase.toNat := (Option.some.inj hd).symm
  refine ⟨Nat.add_le_add_right s.cfg.fracBits_le 11, (phaseMod_lt s.cfg).le, advancePhase_toNat s.cfg s.voice.phase, d,
    exec_of_effect heffect, hvalue, ?width, ?modulus⟩
  case width =>
    rw [hvalue]
    exact s.voice.phase.isLt
  case modulus =>
    rintro ⟨hphase, -⟩
    rwa [hvalue]

end Sys2Proof.Machine
end

section
/-! PROOFS. The extremes of the output (R156). -/

namespace Sys2Proof.Machine

/-- Settles O44: four products and their data words, and a factor 0 makes the product 0. -/
theorem outputExtremes : Obligations.OutputExtremes := by
  refine ⟨by decide, by decide, by decide, by decide, by decide, by decide, by decide, fun a vel => ?sample,
    fun y vel => ?amplitude, outputSample_vel_zero⟩
  case sample => simp [outputSample, floorDiv]
  case amplitude => simp [outputSample, floorDiv]

end Sys2Proof.Machine
end

section
/-! PROOFS. The envelope under repeated RENDERs: Sustain, the attack and decay, the release (R120, R128). -/

namespace Sys2Proof.Machine

/-- In Sustain a RENDER moves the oscillator and nothing else (R120). -/
theorem effect_render_sustain {c : Config} {v : Voice c.fracBits} (h : v.seg = .sustain) :
    (effect c v .render).1 = (oscRender c v).2 := by
  have hsounding : v.seg ≠ .idle := by simp [h]
  have htick : (envTick c v).2 = v := congrArg Prod.snd (envTick_sustain h)
  rw [effect_render_going hsounding (by rwa [htick]), htick]
  rfl

theorem runEffect_renders_sustain {c : Config} {v : Voice c.fracBits} (n : Nat) (h : v.seg = .sustain) :
    (runEffect c (renders n) v).1 = oscTimes c n v := by
  induction n generalizing v with
  | zero => rfl
  | succ n ih =>
    rw [runEffect_render, effect_render_sustain h]
    exact ih h

/-- A command that leaves Sustain is a NOTE_ON or a NOTE_OFF: a RENDER leaves the segment its tick leaves. -/
theorem effect_leaves_sustain {c : Config} {v : Voice c.fracBits} {i : Instr} (h : v.seg = .sustain)
    (hleft : (effect c v i).1.seg ≠ .sustain) : (∃ n vel, i = .noteOn n vel) ∨ i = .noteOff := by
  rcases effect_writes (fun hsame => hleft ((congrArg Voice.seg hsame).trans h)) with ⟨n, vel, hi, -⟩ | hi | rfl
  · exact .inl ⟨n, vel, hi⟩
  · exact .inr hi
  · rw [effect_render_sustain h] at hleft
    exact absurd h hleft

/-- The registers that no OSC_RENDER writes (R106). -/
theorem oscTimes_frame (c : Config) (n : Nat) (v : Voice c.fracBits) :
    (oscTimes c n v).inc = v.inc ∧ (oscTimes c n v).seg = v.seg ∧ (oscTimes c n v).prog = v.prog ∧
    (oscTimes c n v).note = v.note ∧ (oscTimes c n v).vel = v.vel := by
  rw [oscTimes_eq_withPhase]
  exact ⟨rfl, rfl, rfl, rfl, rfl⟩

/-- Settles O32: the run is `oscTimes` of the voice on entry by `runEffect_renders_sustain`, which writes `phase` alone
and by the phase law. -/
theorem sustainHoldsUnderRender : Obligations.SustainHoldsUnderRender := by
  rintro s n ⟨hphase, -, -, hprog, -⟩ hsustain
  obtain ⟨hinc', hseg', hprog', hnote', hvel'⟩ := oscTimes_frame s.cfg n s.voice
  refine ⟨⟨s.cfg.susIndex_lt_size, congrArg Prod.fst (envTick_sustain hsustain)⟩, _,
    after_of_runEffect (Prod.ext (runEffect_renders_sustain n hsustain) rfl), hseg'.trans hsustain, ?prog,
    oscTimes_phase_toNat n hphase, hinc', hnote', hvel', ?leaves⟩
  case prog => exact (congrArg BitVec.toNat hprog').trans (hprog hsustain)
  case leaves =>
    intro i u hexec hleft
    rw [exec_eq, Host.Outcome.next.injEq] at hexec
    subst hexec
    exact effect_leaves_sustain (hseg'.trans hsustain) hleft

/-- Where the envelope of a held note stands when `j` is the index it would have without the stop at `S` (R128). -/
def HeldAt (c : Config) (v : Voice c.fracBits) (j : Nat) : Prop :=
  (j < c.decStart → v.seg = .attack ∧ v.prog.toNat = j) ∧
  (c.decStart ≤ j → j < c.susIndex → v.seg = .decay ∧ v.prog.toNat = j) ∧
  (c.susIndex ≤ j → v.seg = .sustain ∧ v.prog.toNat = c.susIndex)

theorem heldAt_enterSegment_attack (c : Config) (v : Voice c.fracBits) :
    HeldAt c (enterSegment v .attack c.attStart) c.attStart := by
  have hatt := c.attStart_lt
  have hdec := c.decStart_lt
  refine ⟨fun _ => enterSegment_seg_prog v .attack c.attStart_lt_size, fun h => ?_, fun h => ?_⟩ <;> omega

/-- A RENDER moves a held note on by one index: inside its segment, over its end, or not at all in Sustain. -/
theorem HeldAt.render {c : Config} {v : Voice c.fracBits} {j : Nat} (h : HeldAt c v j) :
    HeldAt c (effect c v .render).1 (j + 1) := by
  obtain ⟨-, -, -, tickAttack, tickDecay, tickSustain, -⟩ := envTickInEachState c v
  obtain ⟨hattack, hdecay, hsustain⟩ := h
  have horder := c.decStart_lt
  rcases Nat.lt_or_ge j c.decStart with hj | hj
  · obtain ⟨hseg, rfl⟩ := hattack hj
    obtain ⟨-, hend, hon⟩ := tickAttack hseg
    refine ⟨fun hnext => effect_render_seg_prog hseg (hon hnext), fun hnext _ => ?_, fun hnext => by omega⟩
    have hlast : v.prog.toNat + 1 = c.decStart := by omega
    rw [hlast]
    exact effect_render_seg_prog hseg (hend hnext)
  rcases Nat.lt_or_ge j c.susIndex with hj' | hj'
  · obtain ⟨hseg, rfl⟩ := hdecay hj hj'
    obtain ⟨-, hend, hon⟩ := tickDecay hseg
    exact ⟨fun hnext => by omega, fun _ hnext => effect_render_seg_prog hseg (hon hnext),
      fun hnext => effect_render_seg_prog hseg (hend hnext)⟩
  · obtain ⟨hseg, hprog⟩ := hsustain hj'
    obtain ⟨-, hsame⟩ := tickSustain hseg
    exact ⟨fun hnext => by omega, fun _ hnext => by omega,
      fun _ => effect_render_seg_prog hseg (by rw [hsame]; exact ⟨hseg, hprog⟩)⟩

theorem HeldAt.renders {c : Config} {v : Voice c.fracBits} {j : Nat} (h : HeldAt c v j) (k : Nat) :
    HeldAt c (runEffect c (renders k) v).1 (j + k) := by
  induction k generalizing v j with
  | zero => exact h
  | succ k ih =>
    rw [runEffect_render, ← Nat.succ_add_eq_add_succ]
    exact ih h.render

/-- Settles O33: NOTE_ON starts the note at `A0`, and `k` RENDERs move it on by `k` indices. -/
theorem attackAndDecayLastTheirSegments : Obligations.AttackAndDecayLastTheirSegments := by
  intro s n vel k hn
  refine ⟨_, after_of_runEffect (runEffect_cons_of_decode _ (decode_encode_noteOn n vel)), ?_⟩
  have hheld : HeldAt s.cfg (effect s.cfg s.voice (.noteOn n vel)).1 s.cfg.attStart := by
    rw [effect_noteOn_inRange s.cfg s.voice vel hn]
    exact heldAt_enterSegment_attack s.cfg s.voice
  exact hheld.renders k

/-- From index `j` of the release `m` ticks end neither on a zero entry nor on the last index (R128). -/
def ReleaseLasts (c : Config) (j m : Nat) : Prop :=
  j + m < c.relEnd ∧ ∀ i, i < m → ∀ h : j + i < 1024, c.env[j + i] ≠ 0

/-- The first of `m + 1` ticks reads entry `j`, and the others go on from `j + 1`. -/
theorem releaseLasts_succ {c : Config} {j m : Nat} (hj : j < 1024) :
    ReleaseLasts c j (m + 1) ↔ c.env[j] ≠ 0 ∧ ReleaseLasts c (j + 1) m := by
  have hshift (i : Nat) : j + 1 + i = j + (i + 1) := by omega
  constructor
  · rintro ⟨hlast, hnonzero⟩
    refine ⟨hnonzero 0 (Nat.succ_pos m) hj, by omega, fun i hi h => ?_⟩
    simpa only [hshift] using hnonzero (i + 1) (by omega) (by omega)
  · rintro ⟨hfirst, hlast, hnonzero⟩
    refine ⟨by omega, fun i hi h => ?_⟩
    cases i with
    | zero => exact hfirst
    | succ i => simpa only [hshift] using hnonzero i (by omega) (by omega)

/-- The voice `u` is in Release at index `j` with the note of `v`: increment, note and velocity (R128). -/
def ReleasingAt {F : Nat} (v u : Voice F) (j : Nat) : Prop :=
  u.seg = .release ∧ u.prog.toNat = j ∧ u.inc = v.inc ∧ u.note = v.note ∧ u.vel = v.vel

/-- The tick that reads a zero or stands at the last index ends the note (R123, R153). -/
theorem effect_render_release_end {c : Config} {v : Voice c.fracBits} (h : v.seg = .release)
    (hend : c.env[v.prog.toNat]'v.prog.isLt = 0 ∨ c.relEnd ≤ v.prog.toNat + 1) :
    (effect c v .render).1 = Voice.reset :=
  effect_render_complete (by simp [h]) (congrArg (Voice.seg ∘ Prod.snd)
    (envTick_release_end h (hend.imp_left (congrArg BitVec.toNat))))

/-- Any other tick moves the release on by one index. -/
theorem effect_render_release_on {c : Config} {v : Voice c.fracBits} (h : v.seg = .release)
    (hon : ¬ (c.env[v.prog.toNat]'v.prog.isLt = 0 ∨ c.relEnd ≤ v.prog.toNat + 1)) :
    ReleasingAt v (effect c v .render).1 (v.prog.toNat + 1) := by
  obtain ⟨hnonzero, hnext⟩ := not_or.mp hon
  rw [Nat.not_le] at hnext
  have htick := envTick_release_on h (fun hzero => hnonzero (BitVec.eq_of_toNat_eq hzero)) hnext
  rw [effect_render_going (by simp [h]) (by simp [htick]), htick]
  exact ⟨rfl, enterSegment_prog v .release (hnext.trans_le c.relEnd_le), rfl, rfl, rfl⟩

/-- `m` RENDERs in Release: the note goes on for as long as `ReleaseLasts` says, and then all registers are reset. -/
theorem runEffect_renders_release {c : Config} {v : Voice c.fracBits} (m : Nat) (h : v.seg = .release)
    (hprog : v.prog.toNat < c.relEnd) :
    (ReleaseLasts c v.prog.toNat m → ReleasingAt v (runEffect c (renders m) v).1 (v.prog.toNat + m)) ∧
    (¬ ReleaseLasts c v.prog.toNat m → (runEffect c (renders m) v).1 = Voice.reset) := by
  induction m generalizing v with
  | zero =>
    exact ⟨fun _ => ⟨h, rfl, rfl, rfl, rfl⟩,
      fun hended => absurd ⟨hprog, fun i hi => absurd hi (Nat.not_lt_zero i)⟩ hended⟩
  | succ m ih =>
    rw [runEffect_render, releaseLasts_succ v.prog.isLt]
    by_cases hend : c.env[v.prog.toNat]'v.prog.isLt = 0 ∨ c.relEnd ≤ v.prog.toNat + 1
    · refine ⟨fun ⟨hnonzero, hlast, _⟩ => ?_, fun _ => ?_⟩
      · have := hend.resolve_left hnonzero
        omega
      · rw [effect_render_release_end h hend, runEffect_renders_idle m Voice.reset_seg]
    · obtain ⟨hseg', hprog', hinc', hnote', hvel'⟩ := effect_render_release_on h hend
      obtain ⟨hnonzero, hnext⟩ := not_or.mp hend
      obtain ⟨hlasts, hended⟩ := ih hseg' (by omega)
      rw [hprog'] at hlasts hended
      refine ⟨fun ⟨_, hrest⟩ => ?_, fun hno => hended (fun hrest => hno ⟨hnonzero, hrest⟩)⟩
      obtain ⟨hseg, hprog, hinc, hnote, hvel⟩ := hlasts hrest
      exact ⟨hseg, hprog.trans (by omega), hinc.trans hinc', hnote.trans hnote', hvel.trans hvel'⟩

/-- Settles O34: NOTE_OFF starts the release at `R0` with the note kept, and `runEffect_renders_release` runs it. -/
theorem releaseEndsOnZeroOrExhaustion : Obligations.ReleaseEndsOnZeroOrExhaustion := by
  intro s m hactive
  have hprog := enterSegment_prog s.voice .release s.cfg.relStart_lt_size
  obtain ⟨hlasts, hended⟩ := runEffect_renders_release (v := enterSegment s.voice .release s.cfg.relStart) m rfl
    (by rw [hprog]; exact s.cfg.relStart_lt)
  rw [hprog] at hlasts hended
  refine ⟨_, after_of_runEffect (runEffect_cons_of_decode (i := .noteOff) _ (by decide)), ?_⟩
  rw [effect_noteOff_active hactive]
  exact ⟨hlasts, hended⟩

/-- Settles O45: the first RENDER answers with the entry its tick reads and resets the voice, which is silent from
there. -/
theorem lastSampleThenSilence : Obligations.LastSampleThenSilence := by
  intro s n hrelease hend
  obtain ⟨d, hresponse, hvalue⟩ := effect_render_response (c := s.cfg) (v := s.voice) (by simp [hrelease])
  have hsilent := runEffect_renders_idle (c := s.cfg) (v := Voice.reset) n Voice.reset_seg
  refine ⟨_, d, after_of_runEffect (v := Voice.reset) (rs := ⟨.ok, d⟩ :: List.replicate n ⟨.ok, 0⟩) ?run, rfl, rfl,
    ?value⟩
  case run => rw [runEffect_render, effect_render_release_end hrelease hend, hsilent, hresponse]
  case value =>
    rw [hvalue, envTick_amplitude (.inr (.inr hrelease))]
    rfl

/-- However long a note has been held, it is in Attack, Decay or Sustain. -/
theorem HeldAt.active {c : Config} {v : Voice c.fracBits} {j : Nat} (h : HeldAt c v j) :
    v.seg = .attack ∨ v.seg = .decay ∨ v.seg = .sustain := by
  obtain ⟨hattack, hdecay, hsustain⟩ := h
  rcases Nat.lt_or_ge j c.decStart with hj | hj
  · exact .inl (hattack hj).1
  rcases Nat.lt_or_ge j c.susIndex with hj' | hj'
  · exact .inr (.inl (hdecay hj hj').1)
  · exact .inr (.inr (hsustain hj').1)

/-- After a note has ended ISFREE answers 1 and RENDER 0 (R154, R160). -/
theorem runEffect_isFree_render_reset (c : Config) :
    runEffect c [.command 0x04000000#32, .command 0x03000000#32] Voice.reset =
      (Voice.reset, [⟨.ok, 1⟩, ⟨.ok, 0⟩]) := by
  have hsilent : runEffect c [.command 0x03000000#32] Voice.reset = (Voice.reset, [⟨.ok, 0⟩]) :=
    runEffect_renders_idle 1 Voice.reset_seg
  rw [runEffect_cons_of_decode (i := .isFree) _ (by decide), effect_isFree_idle Voice.reset_seg, hsilent]

/-- Settles O46: the held note is active by `attackAndDecayLastTheirSegments`, so the NOTE_OFF is accepted, and the
release has no more than `R1 - R0` indices for `releaseEndsOnZeroOrExhaustion`. -/
theorem noteRoundTripEndsInTheResetState : Obligations.NoteRoundTripEndsInTheResetState := by
  intro s k m _ hm
  obtain ⟨held, hheldRun, hheld⟩ := attackAndDecayLastTheirSegments s 60 100 k (by decide)
  have hcfg := configurationNeverChanges _ s held hheldRun
  rw [← hcfg] at hheld hm
  obtain ⟨t, hrun, -, hended⟩ := releaseEndsOnZeroOrExhaustion held m (HeldAt.active hheld)
  have hreset : t.voice = Voice.reset := hended (fun ⟨hlast, _⟩ => by omega)
  refine ⟨t, t.done Voice.reset [⟨.ok, 1⟩, ⟨.ok, 0⟩], (after_append _ hheldRun).trans hrun, hreset,
    after_of_runEffect ?_, rfl, rfl⟩
  rw [hreset, runEffect_isFree_render_reset]

end Sys2Proof.Machine
end

section
/-! PROOFS. The frame of every command (R34). -/

namespace Sys2Proof.Machine

/-- `phase` is written by RENDER alone: NOTE_ON and NOTE_OFF keep it (R34, R141, R146). -/
theorem effect_phase {c : Config} {v : Voice c.fracBits} {i : Instr} (h : i ≠ .render) :
    (effect c v i).1.phase = v.phase := by
  by_cases hsame : (effect c v i).1 = v
  · rw [hsame]
  rcases effect_writes hsame with ⟨n, vel, rfl, hn⟩ | rfl | hrender
  · rw [effect_noteOn_inRange c v vel hn, enterSegment_phase]
  · rw [effect_noteOff_of_ne hsame, enterSegment_phase]
  · exact absurd hrender h

/-- `inc`, `note` and `vel` are written by a NOTE_ON in range and by the RENDER that clears the voice (R34). -/
theorem effect_note_registers (c : Config) (v : Voice c.fracBits) (i : Instr) :
    ((∃ n vel, i = .noteOn n vel ∧ n.toNat < 128) ∨ (i = .render ∧ (effect c v i).1 = Voice.reset)) ∨
    ((effect c v i).1.inc = v.inc ∧ (effect c v i).1.note = v.note ∧ (effect c v i).1.vel = v.vel) := by
  by_cases hsame : (effect c v i).1 = v
  · rw [hsame]
    exact .inr ⟨rfl, rfl, rfl⟩
  rcases effect_writes hsame with hnoteOn | rfl | rfl
  · exact .inl (.inl hnoteOn)
  · rw [effect_noteOff_of_ne hsame]
    exact .inr ⟨rfl, rfl, rfl⟩
  · have hsounding : v.seg ≠ .idle := fun hidle => hsame (congrArg Prod.fst (effect_render_idle hidle))
    by_cases hended : (envTick c v).2.seg = .idle
    · exact .inl (.inr ⟨rfl, effect_render_complete hsounding hended⟩)
    · rw [effect_render_going hsounding hended]
      exact .inr ⟨rfl, rfl, rfl⟩

/-- Settles O54: `effect_phase` and `effect_note_registers` for four of the registers, and `effect_writes` for `seg` and
`prog`. -/
theorem eachRegisterHasItsWriters : Obligations.EachRegisterHasItsWriters := by
  intro s t i hexec
  rw [exec_eq, Host.Outcome.next.injEq] at hexec
  subst hexec
  have hnote := effect_note_registers s.cfg s.voice i
  refine ⟨fun hne => ?phase, fun hne => hnote.resolve_right fun ⟨hinc, _⟩ => hne hinc,
    fun hne => effect_writes fun hsame => hne (congrArg Voice.seg hsame),
    fun hne => effect_writes fun hsame => hne (congrArg Voice.prog hsame),
    fun hne => hnote.resolve_right fun ⟨_, hnote', _⟩ => hne hnote',
    fun hne => hnote.resolve_right fun ⟨_, _, hvel⟩ => hne hvel, _, _, rfl, rfl, rfl⟩
  case phase =>
    by_contra hrender
    exact hne (congrArg BitVec.toNat (effect_phase hrender))

end Sys2Proof.Machine
end

section
/-! PROOFS. What a command does not depend on: the table entries it does not read (R52). -/

namespace Sys2Proof

/-- A configuration with other tables beside the same parameters: that of `State.withTables`. -/
def Config.withTables (c : Config) (tables : Tables) : Config := { c with toTables := tables }

end Sys2Proof

namespace Sys2Proof.Machine

/-- The sample depends on the two WaveTable entries that OSC_RENDER reads. -/
theorem oscRender_withTables {c : Config} {v : Voice c.fracBits} {tables : Tables}
    (h0 : tables.wave[(cycleIndex c (oscIdx c v.phase)).val] = c.wave[(cycleIndex c (oscIdx c v.phase)).val])
    (h1 : tables.wave[(cycleIndex c (oscIdx c v.phase + 1)).val] = c.wave[(cycleIndex c (oscIdx c v.phase + 1)).val]) :
    (oscRender (c.withTables tables) v).1 = (oscRender c v).1 := by
  have hentry0 : waveEntry (c.withTables tables) (cycleIndex c (oscIdx c v.phase)) =
      waveEntry c (cycleIndex c (oscIdx c v.phase)) := congrArg BitVec.toInt h0
  have hentry1 : waveEntry (c.withTables tables) (cycleIndex c (oscIdx c v.phase + 1)) =
      waveEntry c (cycleIndex c (oscIdx c v.phase + 1)) := congrArg BitVec.toInt h1
  calc (oscRender (c.withTables tables) v).1
    _ = interpolate c (waveEntry (c.withTables tables) (cycleIndex c (oscIdx c v.phase)))
          (waveEntry (c.withTables tables) (cycleIndex c (oscIdx c v.phase + 1))) (oscFrac c v.phase) := rfl
    _ = (oscRender c v).1 := by rw [hentry0, hentry1]; rfl

/-- A tick depends on the one EnvelopeTable entry it reads: `E[S]` in Sustain, else the entry at the index on entry. -/
theorem envTick_withTables {c : Config} {v : Voice c.fracBits} {tables : Tables}
    (hprog : v.seg ≠ .sustain → tables.env[v.prog.toNat]'v.prog.isLt = c.env[v.prog.toNat]'v.prog.isLt)
    (hsustain : v.seg = .sustain → tables.env[(sustainIndex c).val] = c.env[(sustainIndex c).val]) :
    envTick (c.withTables tables) v = envTick c v := by
  cases hseg : v.seg with
  | idle => exact (envTick_idle (c := c.withTables tables) hseg).trans (envTick_idle hseg).symm
  | sustain =>
    have hentry : envEntry (c.withTables tables) (sustainIndex c) = envEntry c (sustainIndex c) :=
      congrArg BitVec.toNat (hsustain hseg)
    rw [envTick_sustain hseg, ← hentry]
    exact envTick_sustain (c := c.withTables tables) hseg
  | attack | decay | release =>
    have hentry : envEntry (c.withTables tables) (progIndex (F := (c.withTables tables).fracBits) v) =
        envEntry c (progIndex v) := congrArg BitVec.toNat (hprog (by simp [hseg]))
    simp only [envTick, hseg, hentry]
    rfl

theorem effect_lookup_inRange (c : Config) (v : Voice c.fracBits) {n : BitVec 8} (h : n.toNat < 128) :
    effect c v (.lookup n) = (v, ⟨.ok, (pitchEntry c ⟨n.toNat, h⟩).setWidth 32⟩) :=
  dif_pos h

/-- Under other tables a command writes and answers the same, if they agree at the entries it reads (R52). -/
theorem effect_withTables {c : Config} {v : Voice c.fracBits} {tables : Tables} {i : Instr}
    (hrender : i = .render → v.seg ≠ .idle →
      (oscRender (c.withTables tables) v).1 = (oscRender c v).1 ∧
      envTick (c.withTables tables) v = envTick c v)
    (hnoteOn : ∀ n vel, i = .noteOn n vel → ∀ h : n.toNat < 128, tables.pitch[n.toNat] = c.pitch[n.toNat])
    (hlookup : ∀ n, i = .lookup n → ∀ h : n.toNat < 128, tables.pitch[n.toNat] = c.pitch[n.toNat]) :
    effect (c.withTables tables) v i = effect c v i := by
  cases i with
  | noteOn n vel =>
    rcases Nat.lt_or_ge n.toNat 128 with hn | hn
    · have hentry : pitchEntry (c.withTables tables) ⟨n.toNat, hn⟩ = pitchEntry c ⟨n.toNat, hn⟩ := hnoteOn n vel rfl hn
      rw [effect_noteOn_inRange c v vel hn, ← hentry]
      exact effect_noteOn_inRange (c.withTables tables) v vel hn
    · exact (effect_noteOn_outOfRange (c.withTables tables) v vel hn).trans
        (effect_noteOn_outOfRange c v vel hn).symm
  | noteOff => rfl
  | render =>
    by_cases hidle : v.seg = .idle
    · exact (effect_render_idle (c := c.withTables tables) hidle).trans (effect_render_idle hidle).symm
    · obtain ⟨hosc, htick⟩ := hrender rfl hidle
      rw [effect_render_sounding hidle, ← hosc, ← htick]
      exact effect_render_sounding (c := c.withTables tables) hidle
  | isFree => rfl
  | lookup n =>
    rcases Nat.lt_or_ge n.toNat 128 with hn | hn
    · have hentry : pitchEntry (c.withTables tables) ⟨n.toNat, hn⟩ = pitchEntry c ⟨n.toNat, hn⟩ := hlookup n rfl hn
      rw [effect_lookup_inRange c v hn, ← hentry]
      exact effect_lookup_inRange (c.withTables tables) v hn
    · exact (effect_lookup_outOfRange (c.withTables tables) v hn).trans
        (effect_lookup_outOfRange c v hn).symm
  | rdreg r => rfl

/-- Settles O55: both states write what `effect` says, under `effect_withTables`. -/
theorem commandsReadOnlyTheirTableEntries : Obligations.CommandsReadOnlyTheirTableEntries := by
  intro s t tables i hexec hrender hnoteOn hlookup
  rw [exec_eq, Host.Outcome.next.injEq] at hexec
  subst hexec
  have heffect : effect (s.withTables tables).cfg s.voice i = effect s.cfg s.voice i := by
    refine effect_withTables (fun hi hsounding => ?_) hnoteOn hlookup
    obtain ⟨hwave0, hwave1, henv, hsustain⟩ := hrender hi hsounding
    exact ⟨oscRender_withTables hwave0 hwave1, envTick_withTables henv hsustain⟩
  rw [exec_eq, heffect]

end Sys2Proof.Machine
end

section
/-! PROOFS. What a command does not depend on: the register `note`, but for RDREG 4 (R28). -/

namespace Sys2Proof.Machine

/-- What a tick reads of the registers is `seg` and `prog`, and it writes no other (R122, R123). -/
theorem envTick_of_seg_prog {c : Config} {u v : Voice c.fracBits} (hseg : u.seg = v.seg) (hprog : u.prog = v.prog) :
    envTick c u =
      ((envTick c v).1, { u with seg := (envTick c v).2.seg, prog := (envTick c v).2.prog }) := by
  obtain ⟨phase, inc, seg, prog, note, vel⟩ := u
  obtain ⟨phase', inc', seg', prog', note', vel'⟩ := v
  subst hseg hprog
  cases seg with
  | idle | sustain => rfl
  | attack | decay =>
    simp only [envTick, progIndex]
    split_ifs <;> rfl
  | release =>
    by_cases hend : envEntry c ⟨prog.toNat, prog.isLt⟩ = 0 ∨ c.relEnd ≤ prog.toNat + 1
    · rw [envTick_release_end rfl hend, envTick_release_end rfl hend]
      rfl
    · obtain ⟨hnonzero, hon⟩ := not_or.mp hend
      rw [envTick_release_on rfl hnonzero (not_le.mp hon), envTick_release_on rfl hnonzero (not_le.mp hon)]
      rfl

/-- The other registers after a command and its response, RDREG 4 apart, are the same whatever `note` holds (R28). -/
theorem effect_withNote {c : Config} {v : Voice c.fracBits} {i : Instr} (hi : i ≠ .rdreg 4) (m : BitVec 7) :
    ∃ m', effect c { v with note := m } i = ({ (effect c v i).1 with note := m' }, (effect c v i).2) := by
  cases i with
  | noteOn n vel =>
    rcases Nat.lt_or_ge n.toNat 128 with hn | hn
    · rw [effect_noteOn_inRange c v vel hn, effect_noteOn_inRange c _ vel hn]
      exact ⟨n.setWidth 7, rfl⟩
    · rw [effect_noteOn_outOfRange c v vel hn, effect_noteOn_outOfRange c _ vel hn]
      exact ⟨m, rfl⟩
  | noteOff =>
    rcases v.seg.active_or_inactive with hactive | hinactive
    · rw [effect_noteOff_active hactive, effect_noteOff_active (v := { v with note := m }) hactive]
      exact ⟨m, rfl⟩
    · rw [effect_noteOff_inactive hinactive, effect_noteOff_inactive (v := { v with note := m }) hinactive]
      exact ⟨m, rfl⟩
  | render =>
    by_cases hidle : v.seg = .idle
    · rw [effect_render_idle hidle, effect_render_idle (v := { v with note := m }) hidle]
      exact ⟨m, rfl⟩
    · have htick := envTick_of_seg_prog (c := c) (u := { v with note := m }) (v := v) rfl rfl
      rw [effect_render_sounding hidle, effect_render_sounding (v := { v with note := m }) hidle, htick]
      by_cases hended : (envTick c v).2.seg = .idle
      · rw [clearIfIdle_idle (by exact hended), clearIfIdle_idle (by exact hended)]
        exact ⟨0, rfl⟩
      · obtain ⟨-, -, hinc, -, hvel, -⟩ := envTick_cases c v
        rw [clearIfIdle_sounding (by exact hended), clearIfIdle_sounding (by exact hended)]
        simp only [hinc, hvel]
        exact ⟨m, rfl⟩
  | isFree => exact ⟨m, rfl⟩
  | lookup n =>
    rcases Nat.lt_or_ge n.toNat 128 with hn | hn
    · rw [effect_lookup_inRange c v hn, effect_lookup_inRange c _ hn]
      exact ⟨m, rfl⟩
    · rw [effect_lookup_outOfRange c v hn, effect_lookup_outOfRange c _ hn]
      exact ⟨m, rfl⟩
  | rdreg r =>
    have hr : 4 ≠ r.toNat := fun h => hi (congrArg Instr.rdreg (BitVec.eq_of_toNat_eq h.symm))
    have hregs : ({ v with note := m } : Voice c.fracBits).registers[r.toNat]? = v.registers[r.toNat]? :=
      List.getElem?_set_ne (l := v.registers) (a := m.toNat) hr
    refine ⟨m, ?_⟩
    simp only [effect_rdreg, rdregResponse, hregs]

/-- Settles O56: both states write what `effect` says, and the two effects differ in `note` alone. -/
theorem noteRegisterIsReadOnlyByRdreg : Obligations.NoteRegisterIsReadOnlyByRdreg := by
  rintro s s' i m hi rfl
  obtain ⟨m', heffect⟩ := effect_withNote (v := s.voice) hi m
  refine ⟨(effect s.cfg s.voice i).1, _, _, m', exec_eq i s, ?_⟩
  rw [exec_eq, heffect]

end Sys2Proof.Machine
end
